-- ==== Sys2Proof/Config.lean ====
section
/-! DEFINITION. The parameters of 00_scope.md rule R8 at the values this hardware takes. BASE is used by no rule (D3) and is not here. -/

namespace Sys2Proof

/-- M, the field degree: the number of valid positions of an element (R8). -/
abbrev Config.degree : Nat := 293

/-- P = 2M + 1, the auxiliary prime (R8). -/
abbrev Config.prime : Nat := 587

/-- NT, the number of pairs of the multiplication table (R8). -/
abbrev Config.tableCount : Nat := 585

/-- TXTSIZE, the bytes of the text buffer (R8, R24). -/
abbrev Config.txtSize : Nat := 512

/-- BINLEN, the characters of the binary string (R8, R226). -/
abbrev Config.binLength : Nat := 293

/-- BINBUF, the least capacity for the binary string (R8, R225). -/
abbrev Config.binBuffer : Nat := 294

/-- HEXDIGITS, the hexadecimal digits that cover an element (R8, R236). -/
abbrev Config.hexDigits : Nat := 74

/-- HEXBUF, the least capacity for the hexadecimal string (R8, R235). -/
abbrev Config.hexBuffer : Nat := 75

/-- TERM, the string terminator (R8, R222). -/
abbrev Config.term : BitVec 8 := 0x00

/-- HEX_UPPER, the open parameter of D14, at the default that R8 gives this hardware (notes/assumptions/6.md). -/
abbrev Config.hexUpper : Bool := false

end Sys2Proof
end

