-- ==== Sys2Proof/Word.lean ====
section
/-! DEFINITION. The value types of the block: words, bytes, elements and the index types (R11, R12, R20, R24). -/

namespace Sys2Proof

/-- A 32-bit storage word: what one host transaction moves (R60) and what CMD takes (R80). -/
abbrev Word := BitVec 32

/-- One byte of the text buffer (R24). -/
abbrev Byte := BitVec 8

/-- The 320 storage bits of an element (R12): valid positions 0 to 292, excess positions 293 to 319. -/
abbrev Elem := BitVec 320

/-- The number of an element register, E0 to E7 (R20). -/
abbrev Reg := Fin 8

/-- The number of a word of an element, 0 to 9 (R12). -/
abbrev WordIdx := Fin 10

/-- A valid bit position of an element (R114: the out-of-range case is unwritable). -/
abbrev Pos := Fin 293

/-- A member of the multiplication table: a pair of positions (R32). -/
abbrev Pair := Pos × Pos

/-- The capacity field of TOBIN and TOHEX as encoded, 0 to 1023 (R87). -/
abbrev Cap := BitVec 10

/-- A byte offset of the host offset space, 0x000 to 0xFFF (R50). -/
abbrev Offset := BitVec 12

/-- One hexadecimal digit's value (R236). -/
abbrev Nibble := BitVec 4

end Sys2Proof
end

