-- ==== Sys2Proof/Syntax.lean ====
section
/-! DEFINITION. The sixteen commands of 30_encoding.md rule R83, one constructor for each row of the opcode table. -/

namespace Sys2Proof

/-- A command with its operands (R82). A register operand is one of E0 to E7 by its type (R86), so the decoder refuses values 8 to 15. -/
inductive Instr where
  /-- `ZERO Ed` (R130). -/
  | zero (rd : Reg)
  /-- `ONE Ed` (R131). -/
  | one (rd : Reg)
  /-- `MOV Ed, Es` (R116). -/
  | mov (rd rs1 : Reg)
  /-- `CANON Ed, Es` (R117). -/
  | canon (rd rs1 : Reg)
  /-- `ISZERO Es` (R132). -/
  | iszero (rs1 : Reg)
  /-- `ISONE Es` (R133). -/
  | isone (rs1 : Reg)
  /-- `TRACE Es` (R211). -/
  | trace (rs1 : Reg)
  /-- `ADD Ed, Es, Et` (R135). -/
  | add (rd rs1 rs2 : Reg)
  /-- `SQR Ed, Es` (R151). With `rd = rs1` it is the pseudo-instruction SQRI (R91, R153). -/
  | sqr (rd rs1 : Reg)
  /-- `MUL Ed, Es, Et` (R182). -/
  | mul (rd rs1 rs2 : Reg)
  /-- `POW Ed, Ebase, Eexp` (R192). -/
  | pow (rd rs1 rs2 : Reg)
  /-- `INV Ed, Es` (R201). -/
  | inv (rd rs1 : Reg)
  /-- `TOBIN Es, cap` (R225). -/
  | tobin (rs1 : Reg) (cap : Cap)
  /-- `FROMBIN Ed` (R230). -/
  | frombin (rd : Reg)
  /-- `TOHEX Es, cap` (R235). -/
  | tohex (rs1 : Reg) (cap : Cap)
  /-- `FROMHEX Ed` (R240). -/
  | fromhex (rd : Reg)
  deriving DecidableEq, Repr

end Sys2Proof
end

