-- ==== Sys2Proof/WellFormed.lean ====
section
/-! DEFINITION. Which command terms are legal ones (R85). Conditions (a) to (c) hold by the type `Instr`; (d), the capacity, is the check. -/

namespace Sys2Proof

/-- R87: a capacity of 0 to 512 bytes is legal, 513 to 1023 is not. -/
def capLegal (cap : Cap) : Bool := decide (cap.toNat ≤ Config.txtSize)

/-- The command is one that some legal command word encodes (R85). -/
def Instr.wf : Instr → Bool
  | .zero _ => true
  | .one _ => true
  | .mov _ _ => true
  | .canon _ _ => true
  | .iszero _ => true
  | .isone _ => true
  | .trace _ => true
  | .add _ _ _ => true
  | .sqr _ _ => true
  | .mul _ _ _ => true
  | .pow _ _ _ => true
  | .inv _ _ => true
  | .tobin _ cap => capLegal cap
  | .frombin _ => true
  | .tohex _ cap => capLegal cap
  | .fromhex _ => true

end Sys2Proof
end

