-- ==== Sys2Proof/Decode.lean ====
section
/-! DEFINITION. The command word (30_encoding.md): its fields (R81), the five formats (R82), the opcode map (R83), the decoder with its named rejections (R85) and the encoder (R90). -/

namespace Sys2Proof

/-- Why a command word is illegal: the four conditions of R85. The outcome IllegalCommand is the same for all (R263). -/
inductive DecodeError where
  /-- (a) OPC is none of the sixteen values of R83 (R88). -/
  | reservedOpcode
  /-- (b) a register field the format uses names 8 to 15 (R86). -/
  | reservedRegister
  /-- (c) a field the format does not use is not zero (R82). -/
  | unusedField
  /-- (d) the capacity of a format SC command is above 512 (R87). -/
  | capacity
  deriving DecidableEq, Repr

/-- OPC = cw[31:24] (R81). -/
def opcField (cw : Word) : BitVec 8 := cw.extractLsb' 24 8

/-- RD = cw[23:20] (R81). -/
def rdField (cw : Word) : BitVec 4 := cw.extractLsb' 20 4

/-- RS1 = cw[19:16] (R81). -/
def rs1Field (cw : Word) : BitVec 4 := cw.extractLsb' 16 4

/-- RS2 = cw[15:12] (R81). -/
def rs2Field (cw : Word) : BitVec 4 := cw.extractLsb' 12 4

/-- IMM = cw[11:0] (R81). -/
def immField (cw : Word) : BitVec 12 := cw.extractLsb' 0 12

/-- IMM[11:10], which format SC leaves unused (R82). -/
def immHighField (cw : Word) : BitVec 2 := cw.extractLsb' 10 2

/-- CAP = cw[9:0] (R81). -/
def capField (cw : Word) : Cap := cw.extractLsb' 0 10

/-- A used register field: 0 to 7 names En, 8 to 15 is reserved (R86). -/
def readReg (f : BitVec 4) : Except DecodeError Reg :=
  if h : f.toNat < 8 then .ok ⟨f.toNat, h⟩ else .error .reservedRegister

/-- Format D: RD used; RS1, RS2, IMM zero (R82). -/
def decodeD (k : Reg → Instr) (cw : Word) : Except DecodeError Instr :=
  if rs1Field cw = 0 ∧ rs2Field cw = 0 ∧ immField cw = 0 then
    match readReg (rdField cw) with
    | .ok d => .ok (k d)
    | .error e => .error e
  else .error .unusedField

/-- Format DS: RD and RS1 used; RS2, IMM zero (R82). -/
def decodeDS (k : Reg → Reg → Instr) (cw : Word) : Except DecodeError Instr :=
  if rs2Field cw = 0 ∧ immField cw = 0 then
    match readReg (rdField cw), readReg (rs1Field cw) with
    | .ok d, .ok s => .ok (k d s)
    | .error e, _ => .error e
    | _, .error e => .error e
  else .error .unusedField

/-- Format DSS: RD, RS1 and RS2 used; IMM zero (R82). -/
def decodeDSS (k : Reg → Reg → Reg → Instr) (cw : Word) : Except DecodeError Instr :=
  if immField cw = 0 then
    match readReg (rdField cw), readReg (rs1Field cw), readReg (rs2Field cw) with
    | .ok d, .ok s, .ok t => .ok (k d s t)
    | .error e, _, _ => .error e
    | _, .error e, _ => .error e
    | _, _, .error e => .error e
  else .error .unusedField

/-- Format S: RS1 used; RD, RS2, IMM zero (R82). -/
def decodeS (k : Reg → Instr) (cw : Word) : Except DecodeError Instr :=
  if rdField cw = 0 ∧ rs2Field cw = 0 ∧ immField cw = 0 then
    match readReg (rs1Field cw) with
    | .ok s => .ok (k s)
    | .error e => .error e
  else .error .unusedField

/-- Format SC: RS1 and CAP used; RD, RS2, IMM[11:10] zero (R82); CAP at most 512 (R87). -/
def decodeSC (k : Reg → Cap → Instr) (cw : Word) : Except DecodeError Instr :=
  if rdField cw = 0 ∧ rs2Field cw = 0 ∧ immHighField cw = 0 then
    match readReg (rs1Field cw) with
    | .ok s => if capLegal (capField cw) then .ok (k s (capField cw)) else .error .capacity
    | .error e => .error e
  else .error .unusedField

/-- The command a word encodes, or why it is illegal: the opcode map of R83 over the formats of R82. `Legal(cw)` of R85 is that the answer is `ok`. -/
def decode (cw : Word) : Except DecodeError Instr :=
  match opcField cw with
  | 0x01#8 => decodeD .zero cw
  | 0x02#8 => decodeD .one cw
  | 0x03#8 => decodeDS .mov cw
  | 0x04#8 => decodeDS .canon cw
  | 0x08#8 => decodeS .iszero cw
  | 0x09#8 => decodeS .isone cw
  | 0x0A#8 => decodeS .trace cw
  | 0x10#8 => decodeDSS .add cw
  | 0x11#8 => decodeDS .sqr cw
  | 0x12#8 => decodeDSS .mul cw
  | 0x13#8 => decodeDSS .pow cw
  | 0x14#8 => decodeDS .inv cw
  | 0x20#8 => decodeSC .tobin cw
  | 0x21#8 => decodeD .frombin cw
  | 0x22#8 => decodeSC .tohex cw
  | 0x23#8 => decodeD .fromhex cw
  | _ => .error .reservedOpcode

/-- The match and mask table (R94): operation code, mask, and whether the capacity condition of format SC is to hold besides. -/
def encodingRows : List (BitVec 8 × Word × Bool) :=
  [(0x01, 0xFF8FFFFF, false), (0x02, 0xFF8FFFFF, false), (0x03, 0xFF88FFFF, false), (0x04, 0xFF88FFFF, false),
   (0x08, 0xFFF8FFFF, false), (0x09, 0xFFF8FFFF, false), (0x0A, 0xFFF8FFFF, false), (0x10, 0xFF888FFF, false)] ++
  [(0x11, 0xFF88FFFF, false), (0x12, 0xFF888FFF, false), (0x13, 0xFF888FFF, false), (0x14, 0xFF88FFFF, false),
   (0x20, 0xFFF8FC00, true), (0x21, 0xFF8FFFFF, false), (0x22, 0xFFF8FC00, true), (0x23, 0xFF8FFFFF, false)]

/-- `match` of a row: `OPC << 24` (R94). -/
def rowMatch (opc : BitVec 8) : Word := opc.setWidth 32 <<< 24

/-- The word with the given fields, `(OPC << 24) | (d << 20) | (s << 16) | (t << 12) | cap` (R90). -/
def packWord (opc : BitVec 8) (d s t : Nat) (cap : Cap) : Word :=
  (opc.setWidth 32 <<< 24) ||| (BitVec.ofNat 32 d <<< 20) ||| (BitVec.ofNat 32 s <<< 16) |||
    (BitVec.ofNat 32 t <<< 12) ||| cap.setWidth 32

/-- The operation code of a command (R83). -/
def Instr.opcode : Instr → BitVec 8
  | .zero _ => 0x01
  | .one _ => 0x02
  | .mov _ _ => 0x03
  | .canon _ _ => 0x04
  | .iszero _ => 0x08
  | .isone _ => 0x09
  | .trace _ => 0x0A
  | .add _ _ _ => 0x10
  | .sqr _ _ => 0x11
  | .mul _ _ _ => 0x12
  | .pow _ _ _ => 0x13
  | .inv _ _ => 0x14
  | .tobin _ _ => 0x20
  | .frombin _ => 0x21
  | .tohex _ _ => 0x22
  | .fromhex _ => 0x23

/-- The word of a command, absent operands taken as 0 (R90). -/
def encode (i : Instr) : Word :=
  match i with
  | .zero d => packWord i.opcode d 0 0 0
  | .one d => packWord i.opcode d 0 0 0
  | .mov d s => packWord i.opcode d s 0 0
  | .canon d s => packWord i.opcode d s 0 0
  | .iszero s => packWord i.opcode 0 s 0 0
  | .isone s => packWord i.opcode 0 s 0 0
  | .trace s => packWord i.opcode 0 s 0 0
  | .add d s t => packWord i.opcode d s t 0
  | .sqr d s => packWord i.opcode d s 0 0
  | .mul d s t => packWord i.opcode d s t 0
  | .pow d s t => packWord i.opcode d s t 0
  | .inv d s => packWord i.opcode d s 0 0
  | .tobin s cap => packWord i.opcode 0 s 0 cap
  | .frombin d => packWord i.opcode d 0 0 0
  | .tohex s cap => packWord i.opcode 0 s 0 cap
  | .fromhex d => packWord i.opcode d 0 0 0

/-- The word the block receives when an instruction's bits are `w`, of which the opcode table gives `nbits`: one 32-bit word taken as a number (R80), bits above `nbits` zero. -/
def tableWord (nbits w : Nat) : Word := BitVec.ofNat 32 (w % 2 ^ nbits)

/-- What the decoder reads from an instruction whose bits are `w`, `none` where it refuses. -/
def decodeTableWord (nbits w : Nat) : Option Instr :=
  match decode (tableWord nbits w) with
  | .ok i => some i
  | .error _ => none

end Sys2Proof
end

