-- ==== Sys2Proof/Machine/State.lean ====
section
/-! DEFINITION. The state of the block (10_state.md), the host's events, the reasons a step can stop, and the state after reset (R39). -/

namespace Sys2Proof.Machine

/-- The text buffer TXT (R24): its bytes that differ from what an unlisted index reads as, by rising index. -/
abbrev Txt := List Host.Cell

/-- The outcome of a command, as STATUS.ERR shows it (R260, R261). -/
inductive ErrKind where
  | ok
  | invalidFormat
  | invalidDigit
  | overflow
  | bufferTooSmall
  | illegalCommand
  | nonCanonical
  | tableFatal
  deriving DecidableEq, Repr

/-- What one reset draws for the state that reset leaves unspecified (R39, R300). `txt` lists (index, byte) pairs; a byte it does not list is 0x00. -/
structure ResetDraw where
  regs : Vector Elem 8
  txt : List Host.Cell
  pend : Word
  tbl : List Pair
  deriving DecidableEq, Repr

/-- One event of the stream that drives the block: a host transaction (R38), the core's turn (R31), or a reset (R300). -/
inductive HostEvent where
  /-- `HostRead(off)` (R52). -/
  | read (off : Offset)
  /-- `HostWrite(off, d)` (R53). -/
  | write (off : Offset) (d : Word)
  /-- The core takes its step before the host's next transaction; nothing is enabled while BUSY = 0 (R31). -/
  | coreTurn
  /-- Reset, which may come at any time (R300, R302). -/
  | reset (draw : ResetDraw)
  deriving DecidableEq, Repr

/-- The machine. The fields up to `tbl` are the block's (R39); the last two are the model's own and stand for the one host (R38). -/
structure State where
  /-- E0 to E7, 320 bits each (R20). -/
  regs : Vector Elem 8
  /-- TXT, 512 bytes (R24). -/
  txt : Txt
  /-- STATUS.BUSY (R26, R31). -/
  busy : Bool
  /-- STATUS.FATAL (R26, R169). -/
  fatal : Bool
  /-- STATUS.HERR (R26, R59). -/
  herr : Bool
  /-- STATUS.ERR (R26, R261). -/
  err : ErrKind
  /-- RESULT (R27). -/
  result : Word
  /-- The pending command word, hidden (R31). -/
  pend : Word
  /-- `tbl_ready`, hidden (R32). -/
  tblReady : Bool
  /-- `tbl`, the table store, hidden (R32). -/
  tbl : List Pair
  /-- The model's own: the events still to come, first one first. It is the "program" of R30. -/
  hostIn : List HostEvent
  /-- The model's own: the values the host's reads have returned, latest first. -/
  replies : List Word
  deriving DecidableEq, Repr

/-- Faults. There are none: every command word and every transaction has a defined next state in every state (R274, 93_implementation_defined.md part 2), so no step raises one. -/
inductive Fault where
  deriving DecidableEq, Repr

/-- Refusals. -/
inductive Refusal where
  /-- An instruction with no meaning yet, by its mnemonic. Raised by no arm of `exec`: all sixteen have their meaning. Safe. -/
  | notModelled (mnemonic : String)
  deriving DecidableEq, Repr

/-- What a step answers. -/
abbrev Result := Host.Outcome State Fault Refusal

/-- The machine right after reset (R39, R301). STATUS, RESULT and `tbl_ready` are the spec's values; registers, TXT, `pend` and `tbl` are unspecified there and named in notes/assumptions/1.md to 3.md; the host's stream is empty (notes/assumptions/4.md). -/
def State.reset : State where
  regs := Vector.replicate 8 0
  txt := []
  busy := false
  fatal := false
  herr := false
  err := .ok
  result := 0
  pend := 0
  tblReady := false
  tbl := []
  hostIn := []
  replies := []

end Sys2Proof.Machine
end

