-- ==== Sys2Proof/Machine/Operands.lean ====
section
/-! DEFINITION. The bit-vector core (40_bitvector_core.md) and the readings of an element register: by position, by word, as a constant, as an unsigned integer. -/

namespace Sys2Proof.Machine

/-- `get_bit(x, i)` (R110). -/
def getBit (x : Elem) (i : Pos) : Bool := x.getLsbD i

/-- `set_bit(x, i)`: position i made 1, every other unchanged (R111). -/
def setBit (x : Elem) (i : Pos) : Elem := x ||| (1#320 <<< i.val)

/-- `canonicalize(x)`: every bit at position 293 or above cleared (R112). -/
def canonicalize (x : Elem) : Elem := (x.setWidth 293).setWidth 320

/-- `is_canonical(x)`: every excess position is zero (R113), that is, clearing them changes nothing. -/
def isCanonical (x : Elem) : Bool := canonicalize x == x

/-- ZERO_V (R137). -/
def zeroV : Elem := 0

/-- ONE_V: all 293 valid positions set (R137). -/
def oneV : Elem := canonicalize (BitVec.allOnes 320)

/-- `x.w[k]` (R12). -/
def elemWord (x : Elem) (k : WordIdx) : Word := x.extractLsb' (32 * k.val) 32

/-- `x.w[k] <- d`, the other nine words unchanged (R14, R56). -/
def setElemWord (x : Elem) (k : WordIdx) (d : Word) : Elem :=
  (x &&& ~~~((BitVec.allOnes 32).setWidth 320 <<< (32 * k.val))) ||| (d.setWidth 320 <<< (32 * k.val))

/-- The element with the given words, word 0 first (R12). -/
def elemOfWords : List Word → Elem
  | [] => 0
  | w :: ws => (elemOfWords ws <<< 32) ||| w.setWidth 320

/-- N(e), the exponent reading of a register (R191). -/
def exponentValue (e : Elem) : Nat := e.toNat

/-- `popcount(x)` (R11) over the valid positions. -/
def popcount (x : Elem) : Nat := (List.finRange 293).countP fun i => getBit x i

end Sys2Proof.Machine
end

