-- ==== Sys2Proof/Machine/Table.lean ====
section
/-! DEFINITION. The multiplication table (43_mul_table.md): the builder's algorithm (R161 to R164) and the listing of what it builds (R167). Laws/Table.lean proves the two equal. -/

namespace Sys2Proof.Machine

/-- `pow2[k]` by doubling modulo 587 (R161). -/
def pow2 : Nat → Nat
  | 0 => 1
  | k + 1 => 2 * pow2 k % Config.prime

/-- `norm(v)`, the representative in [0, 586] (R162). -/
def norm (v : Int) : Int := ((v % 587) + 587) % 587

/-- `hit(i, j)`: one of the four sign combinations gives 1 modulo 587 (R162). -/
def hit (i j : Pos) : Bool :=
  [(1 : Int), -1].any fun s1 => [(1 : Int), -1].any fun s2 => norm (s1 * pow2 i + s2 * pow2 j) == 1

/-- The double loop of the builder, i outermost (R164). -/
def buildPairs : List Pair :=
  (List.finRange 293).flatMap fun i => (List.finRange 293).filterMap fun j => if hit i j then some (i, j) else none

/-- R167: for each first index 0 to 292 in order, the second indices of its pairs. -/
def tableRows : List (List Pos) :=
  [[1], [0, 185], [185, 205], [53, 77], [38, 97], [61, 268],
   [130, 217], [228, 277], [135, 181], [202, 235], [36, 75], [82, 96],
   [54, 187], [117, 262], [212, 223], [150, 168], [23, 147], [45, 244],
   [144, 159], [107, 190], [109, 111], [120, 161], [146, 178], [16, 151],
   [241, 244], [30, 64], [86, 283], [164, 226], [142, 276], [63, 131]] ++
  [[25, 242], [44, 86], [148, 170], [92, 101], [264, 289], [74, 114],
   [10, 236], [96, 232], [4, 78], [258, 268], [220, 255], [174, 195],
   [250, 281], [85, 239], [31, 243], [17, 148], [159, 167], [119, 224],
   [112, 192], [66, 73], [94, 290], [81, 183], [76, 204], [3, 186],
   [12, 97], [139, 262], [125, 288], [93, 172], [67, 194], [256, 260]] ++
  [[138, 267], [5, 98], [130, 157], [29, 143], [25, 245], [72, 283],
   [49, 193], [58, 94], [231, 260], [116, 237], [84, 188], [176, 282],
   [65, 246], [49, 113], [35, 290], [10, 203], [52, 82], [3, 206],
   [38, 233], [201, 258], [182, 230], [51, 95], [11, 76], [187, 206],
   [70, 238], [43, 282], [26, 31], [164, 170], [90, 274], [141, 273]] ++
  [[88, 165], [100, 273], [33, 171], [57, 289], [50, 67], [81, 231],
   [11, 37], [4, 54], [61, 139], [157, 272], [91, 166], [33, 149],
   [213, 264], [122, 248], [210, 280], [175, 222], [118, 189], [19, 160],
   [109, 110], [20, 108], [108, 161], [20, 191], [48, 120], [73, 247],
   [35, 265], [137, 236], [69, 261], [13, 188], [106, 223], [47, 160]] ++
  [[21, 112], [178, 247], [103, 214], [155, 210], [271, 287], [56, 140],
   [172, 275], [227, 285], [218, 270], [156, 216], [6, 62], [29, 277],
   [153, 242], [240, 252], [152, 180], [8, 278], [198, 235], [115, 266],
   [60, 261], [55, 98], [125, 272], [89, 275], [28, 165], [63, 158],
   [18, 245], [177, 190], [22, 162], [16, 169], [32, 45], [101, 167]] ++
  [[15, 213], [23, 179], [134, 241], [132, 278], [209, 252], [123, 215],
   [129, 271], [62, 99], [143, 166], [18, 46], [107, 119], [21, 110],
   [146, 191], [169, 225], [27, 87], [90, 142], [100, 158], [46, 149],
   [15, 224], [147, 163], [32, 87], [92, 274], [57, 126], [194, 285],
   [41, 221], [105, 281], [71, 189], [145, 246], [22, 121], [151, 214]] ++
  [[134, 253], [8, 229], [80, 202], [51, 291], [204, 292], [1, 2],
   [53, 205], [12, 83], [70, 117], [106, 176], [19, 145], [111, 162],
   [48, 225], [66, 284], [58, 173], [41, 256], [200, 250], [208, 234],
   [136, 279], [249, 266], [196, 257], [79, 234], [9, 182], [75, 291],
   [52, 184], [2, 186], [77, 83], [233, 238], [197, 251], [154, 279]] ++
  [[104, 123], [222, 287], [14, 263], [102, 150], [122, 179], [155, 253],
   [129, 219], [6, 269], [128, 228], [216, 254], [40, 269], [174, 286],
   [105, 211], [14, 118], [47, 168], [163, 192], [27, 284], [127, 276],
   [7, 218], [181, 254], [80, 259], [68, 95], [37, 237], [78, 207],
   [197, 201], [9, 136], [36, 115], [69, 232], [84, 207], [43, 251]] ++
  [[133, 243], [24, 152], [30, 132], [44, 240], [17, 24], [64, 144],
   [72, 177], [113, 121], [103, 265], [199, 280], [42, 196], [208, 239],
   [133, 154], [180, 215], [219, 229], [40, 259], [59, 195], [200, 267],
   [39, 79], [230, 255], [59, 68], [116, 138], [13, 55], [212, 288],
   [34, 102], [114, 248], [137, 199], [60, 257], [5, 39], [217, 220]] ++
  [[128, 286], [124, 156], [99, 140], [89, 91], [88, 171], [126, 141],
   [28, 227], [7, 131], [135, 153], [198, 209], [104, 249], [42, 175],
   [71, 85], [26, 65], [193, 226], [127, 173], [221, 270], [124, 211],
   [56, 263], [34, 93], [50, 74], [183, 203], [184, 292]]

/-- T as the listing of R167 gives it, sorted by i, then by j. It equals `buildPairs` (Laws/Table.lean, notes/assumptions/8.md) and is what `tbl` holds once built (R165). -/
def table : List Pair :=
  ((List.finRange 293).zip tableRows).flatMap fun row => row.2.map fun j => (row.1, j)

/-- `build()` (R164): the entries are written, then the count is tested; a count other than 585 sets FATAL and leaves `tbl_ready` 0 (R169). -/
def build (s : State) : State :=
  if table.length = Config.tableCount then { s with tbl := table, tblReady := true }
  else { s with tbl := table, fatal := true }

end Sys2Proof.Machine
end

