-- ==== Sys2Proof/Machine/Field.lean ====
section
/-! DEFINITION. The pure functions of the field (files 41, 42, 44 to 47): add, sqr, mul, power, invert, trace. -/

namespace Sys2Proof.Machine

/-- `add(a, b)`: word-wise exclusive-or (R134). -/
def add (a b : Elem) : Elem := a ^^^ b

/-- `sqr(x)` by the word-level algorithm of R152, which on a canonical x is the rotation of R150. -/
def sqr (x : Elem) : Elem :=
  let y := canonicalize (x <<< 1)
  if getBit x 292 then setBit y 0 else y

/-- The valid positions of x written twice, end to end: position i + a of it is position (i + a) mod 293 of x, for i, a < 293 (R180). -/
def twice (x : Elem) : BitVec 640 := (canonicalize x).setWidth 640 ||| ((canonicalize x).setWidth 640 <<< 293)

/-- The exclusive-or over the pairs (a, b) of u shifted by a and v shifted by b (R181's vector form). -/
def mulPairs (u v : BitVec 640) : List Pair → BitVec 640
  | [] => 0
  | (a, b) :: t => ((u >>> a.val) &&& (v >>> b.val)) ^^^ mulPairs u v t

/-- `mul(u, v)` over the table `tbl` (R180, R181). -/
def mul (tbl : List Pair) (u v : Elem) : Elem :=
  canonicalize ((mulPairs (twice u) (twice v) tbl).setWidth 320)

/-- The loop of `power` for positions n − 1 down to 0 (R193). -/
def powerLoop (tbl : List Pair) (g e : Elem) : Nat → Elem → Elem
  | 0, r => r
  | n + 1, r => powerLoop tbl g e n (if e.getLsbD n then mul tbl (sqr r) g else sqr r)

/-- `power(g, e)`: square-and-multiply, positions 292 down to 0 (R193). -/
def power (tbl : List Pair) (g e : Elem) : Elem := powerLoop tbl g e 293 oneV

/-- `n` iterations of the loop of `invert`: square t, then multiply inv by t (R200). -/
def invertLoop (tbl : List Pair) : Nat → Elem → Elem → Elem
  | 0, _, inv => inv
  | n + 1, t, inv => invertLoop tbl n (sqr t) (mul tbl inv (sqr t))

/-- `invert(a)`: a to the power 2^293 − 2, with zero mapped to zero (R200). -/
def invert (tbl : List Pair) (a : Elem) : Elem :=
  if a = zeroV then zeroV else invertLoop tbl 292 a oneV

/-- The exclusive-or of the ten words of x, and the binary fold of it down to one bit (R210). -/
def trace (x : Elem) : Bool :=
  let f := (List.finRange 10).foldl (fun f k => f ^^^ elemWord x k) 0
  let f := f ^^^ (f >>> 16)
  let f := f ^^^ (f >>> 8)
  let f := f ^^^ (f >>> 4)
  let f := f ^^^ (f >>> 2)
  let f := f ^^^ (f >>> 1)
  f.getLsbD 0

end Sys2Proof.Machine
end

