-- ==== Sys2Proof/Machine/Flags.lean ====
section
/-! DEFINITION. What the host reads as flags (R28): the outcome codes of STATUS.ERR (R261), the STATUS word (R26), the boolean form of RESULT (R27). -/

namespace Sys2Proof.Machine

/-- `code(out)`: the outcome codes (R261). -/
def errCode : ErrKind → Byte
  | .ok => 0x00
  | .invalidFormat => 0x01
  | .invalidDigit => 0x02
  | .overflow => 0x03
  | .bufferTooSmall => 0x04
  | .illegalCommand => 0x10
  | .nonCanonical => 0x11
  | .tableFatal => 0x1F

/-- A one-bit answer as a 32-bit word, bits 31 to 1 zero (R27). -/
def boolWord (b : Bool) : Word := if b then 1 else 0

/-- STATUS as the host reads it: BUSY bit 0, FATAL bit 1, HERR bit 2, ERR bits 15:8, the reserved bits zero (R26). -/
def statusWord (s : State) : Word :=
  boolWord s.busy ||| (boolWord s.fatal <<< 1) ||| (boolWord s.herr <<< 2) ||| ((errCode s.err).setWidth 32 <<< 8)

end Sys2Proof.Machine
end

