-- ==== Sys2Proof/Machine/Memory.lean ====
section
/-! DEFINITION. The text buffer as a canonical list of (index, byte) pairs, with `MemRead` and `MemWrite` (R14, R24, R64) and the packing of four bytes to a host word (R57). -/

namespace Sys2Proof.Machine

/-- What a byte of TXT that nothing has written reads as (R39 leaves it unspecified: DESIGN CHOICE, notes/assumptions/2.md). -/
abbrev unwrittenByte : Byte := 0

/-- The canonical form of TXT: indices strictly rising and below 512, no byte listed that an unlisted index would read as. -/
abbrev Memory.wf (m : Txt) : Prop :=
  m.Pairwise (fun c d => c.1 < d.1) ∧ ∀ c ∈ m, c.1 < Config.txtSize ∧ c.2 ≠ unwrittenByte

/-- `MemRead(TXT, k, 1)` (R64). -/
def memRead : Txt → Nat → Byte
  | [], _ => unwrittenByte
  | (a, b) :: m, k => if a = k then b else memRead m k

/-- The listing with one pair at its head, left out when it says what an unlisted index reads as. -/
def memCons (k : Nat) (b : Byte) (m : Txt) : Txt := if b = unwrittenByte then m else (k, b) :: m

/-- `MemWrite(TXT, k, 1, b)` (R64). -/
def memWrite : Txt → Nat → Byte → Txt
  | [], k, b => memCons k b []
  | (a, c) :: m, k, b =>
    if k < a then memCons k b ((a, c) :: m)
    else if k = a then memCons k b m
    else (a, c) :: memWrite m k b

/-- Writes a run of bytes at rising indices from `k`; the order of the byte accesses is not observable (R64). -/
def memWriteBytes : Txt → Nat → List Byte → Txt
  | m, _, [] => m
  | m, k, b :: bs => memWrite (memWriteBytes m (k + 1) bs) k b

/-- The `n` bytes from index `k` on. -/
def memReadBytes (m : Txt) (k n : Nat) : List Byte := (List.range n).map fun i => memRead m (k + i)

/-- The buffer that a list of (index, byte) pairs describes, an earlier pair over a later one; a pair outside 0..511 names no byte of TXT. -/
def memOfCells : List Host.Cell → Txt
  | [] => []
  | (k, b) :: cs => if k < Config.txtSize then memWrite (memOfCells cs) k b else memOfCells cs

/-- R57: the host's word at 0x400 + 4·j, the lowest index in the least significant byte. -/
def txtWord (m : Txt) (j : Nat) : Word :=
  memRead m (4 * j + 3) ++ memRead m (4 * j + 2) ++ memRead m (4 * j + 1) ++ memRead m (4 * j)

/-- R57: a host write replaces all four bytes. -/
def setTxtWord (m : Txt) (j : Nat) (d : Word) : Txt :=
  memWriteBytes m (4 * j) [d.extractLsb' 0 8, d.extractLsb' 8 8, d.extractLsb' 16 8, d.extractLsb' 24 8]

end Sys2Proof.Machine
end

