-- ==== Sys2Proof/Machine/Text.lean ====
section
/-! DEFINITION. The text forms of an element (48_serialization.md): binary string and hexadecimal string, to and from the bytes of TXT. -/

namespace Sys2Proof.Machine

/-- `'0'` or `'1'` (R222, R226). -/
def binChar (b : Bool) : Byte := if b then 0x31 else 0x30

/-- The 293 characters of the binary string, position 292 first (R226). -/
def binString (x : Elem) : List Byte := (List.finRange 293).map fun (k : Pos) => binChar (getBit x k.rev)

/-- The byte is one of the two characters a binary string is made of (R230). -/
def isBinChar (b : Byte) : Bool := b == 0x30 || b == 0x31

/-- What FROMBIN reads: `none` for InvalidFormat (a character outside the two in TXT[0..292], or no terminator at index 293), else the element whose position 292 − k is set where TXT[k] is `'1'` (R230). -/
def parseBin (m : Txt) : Option Elem :=
  if (memReadBytes m 0 Config.binLength).all isBinChar && memRead m Config.binLength == Config.term then
    some ((List.finRange 293).foldl (fun z (k : Pos) => if memRead m k.val = 0x31 then setBit z k.rev else z) zeroV)
  else none

/-- `hexchar(v)`, in upper or lower case (R223). -/
def hexChar (upper : Bool) (v : Nibble) : Byte :=
  if v.toNat ≤ 9 then BitVec.ofNat 8 (0x30 + v.toNat)
  else if upper then BitVec.ofNat 8 (0x41 + (v.toNat - 10))
  else BitVec.ofNat 8 (0x61 + (v.toNat - 10))

/-- `hexval(b)`: the digit's value, both cases accepted (R223). -/
def hexVal (b : Byte) : Option Nat :=
  if 0x30 ≤ b.toNat ∧ b.toNat ≤ 0x39 then some (b.toNat - 0x30)
  else if 0x41 ≤ b.toNat ∧ b.toNat ≤ 0x46 then some (b.toNat - 0x41 + 10)
  else if 0x61 ≤ b.toNat ∧ b.toNat ≤ 0x66 then some (b.toNat - 0x61 + 10)
  else none

/-- `nib[j]`, positions 4j to 4j + 3 (R236). -/
def nibble (x : Elem) (j : Nat) : Nibble := x.extractLsb' (4 * j) 4

/-- The 74 nibbles, the most significant first (R236). -/
def nibblesMsbFirst (x : Elem) : List Nibble := (List.range Config.hexDigits).reverse.map (nibble x)

/-- Leading zero nibbles stripped down to a minimum of one digit (R236). -/
def stripZeros (l : List Nibble) : List Nibble :=
  match l.dropWhile (· == 0) with
  | [] => [0]
  | d :: ds => d :: ds

/-- The characters of the hexadecimal string (R236). -/
def hexString (upper : Bool) (x : Elem) : List Byte := (stripZeros (nibblesMsbFirst x)).map (hexChar upper)

/-- `hexlen`: the first index in 0..74 that holds the terminator, `none` for "over" (R241). -/
def hexLen (m : Txt) : Option Nat := (List.range Config.hexBuffer).find? fun k => memRead m k == Config.term

/-- The value of a run of digits, most significant first, after the value `acc`; `none` at a byte that is no digit (R240). -/
def hexNumber : Nat → List Byte → Option Nat
  | acc, [] => some acc
  | acc, b :: bs =>
    match hexVal b with
    | some d => hexNumber (16 * acc + d) bs
    | none => none

/-- What FROMHEX reads: the length first (Overflow, InvalidFormat), then the digits (InvalidDigit), then the value with positions 293 to 295 dropped (R240, R242). -/
def parseHex (m : Txt) : Except ErrKind Elem :=
  match hexLen m with
  | none => .error .overflow
  | some 0 => .error .invalidFormat
  | some (n + 1) =>
    match hexNumber 0 (memReadBytes m 0 (n + 1)) with
    | none => .error .invalidDigit
    | some v => .ok (canonicalize (BitVec.ofNat 320 v))

end Sys2Proof.Machine
end

