-- ==== Sys2Proof/Machine/Ops.lean ====
section
/-! DEFINITION. The named operations over the state: registers, RESULT, TXT, the end of a command (R31, R266), the checks before it (R84) and the table's first use (R168). -/

namespace Sys2Proof.Machine

/-- `E[r]` (R14). -/
def State.elem (s : State) (r : Reg) : Elem := s.regs[r]

/-- `E[r] <- v` (R14). -/
def State.setElem (s : State) (r : Reg) (v : Elem) : State := { s with regs := s.regs.set r v }

/-- `RESULT <- v` (R27). -/
def State.setResult (s : State) (v : Word) : State := { s with result := v }

/-- A string and its terminator written to TXT from index 0 (R24, R225, R235). -/
def State.setText (s : State) (str : List Byte) : State := { s with txt := memWriteBytes s.txt 0 (str ++ [Config.term]) }

/-- The end of a command: STATUS.ERR takes the outcome and BUSY falls (R31). -/
def State.complete (s : State) (k : ErrKind) : State := { s with err := k, busy := false }

/-- A command that succeeds: outcome OK (R84 step 5). -/
def succeed (s : State) : Result := .next (s.complete .ok)

/-- `fail K`, what stands for taking an exception (R266, R270): the outcome is recorded, BUSY falls, and nothing else is written. Nothing is saved and nothing returns from it (R271). -/
def failWith (s : State) (k : ErrKind) : Result := .next (s.complete k)

/-- Steps 1 to 3 of `Run` (R84) before a command's own rule: FATAL, then legality, then that the checked sources are canonical (R93, R268). -/
def command (s : State) (legal : Bool) (srcs : List Reg) (body : Result) : Result :=
  if s.fatal then failWith s .tableFatal
  else if !legal then failWith s .illegalCommand
  else if srcs.all fun r => isCanonical (s.elem r) then body
  else failWith s .nonCanonical

/-- `Run` on a word that encodes no command (R84 steps 1 and 2, R263). -/
def illegalWord (s : State) : Result := command s false [] (succeed s)

/-- The table as `mul` finds it: built first when `mul` is evaluated with `tbl_ready` = 0 (R168). -/
def prepareTable (s : State) (used : Bool) : State := if used && !s.tblReady then build s else s

/-- `E[rd] <- f(tbl)` for an `f` that multiplies if `used`; a build that fails ends the command with TableFatal instead (R168, R169). -/
def writeWithTable (s : State) (used : Bool) (rd : Reg) (f : List Pair → Elem) : Result :=
  let s' := prepareTable s used
  if s'.fatal then failWith s' .tableFatal else succeed (s'.setElem rd (f s'.tbl))

end Sys2Proof.Machine
end

