-- ==== Sys2Proof/Machine/Arith.lean ====
section
/-! DEFINITION. ADD, SQR, MUL, POW, INV: field arithmetic (files 41, 42, 44 to 46). -/

namespace Sys2Proof.Machine

/-- ADD Ed, Es, Et (R135). -/
def execAdd (rd rs1 rs2 : Reg) (s : State) : Result :=
  command s true [rs1, rs2] (succeed (s.setElem rd (add (s.elem rs1) (s.elem rs2))))

/-- SQR Ed, Es (R151). It never uses the table. -/
def execSqr (rd rs1 : Reg) (s : State) : Result := command s true [rs1] (succeed (s.setElem rd (sqr (s.elem rs1))))

/-- MUL Ed, Es, Et (R182): `mul` is always evaluated (R168). -/
def execMul (rd rs1 rs2 : Reg) (s : State) : Result :=
  command s true [rs1, rs2] (writeWithTable s true rd fun tbl => mul tbl (s.elem rs1) (s.elem rs2))

/-- POW Ed, Ebase, Eexp (R192): `mul` is evaluated if the exponent has a one bit (R168, R196). -/
def execPow (rd rs1 rs2 : Reg) (s : State) : Result :=
  command s true [rs1, rs2]
    (writeWithTable s (s.elem rs2 != zeroV) rd fun tbl => power tbl (s.elem rs1) (s.elem rs2))

/-- INV Ed, Es (R201): `mul` is evaluated if the operand is not zero (R168). -/
def execInv (rd rs1 : Reg) (s : State) : Result :=
  command s true [rs1] (writeWithTable s (s.elem rs1 != zeroV) rd fun tbl => invert tbl (s.elem rs1))

end Sys2Proof.Machine
end

