-- ==== Sys2Proof/Machine/Constants.lean ====
section
/-! DEFINITION. ZERO, ONE, MOV, CANON: constants and the bit-vector core (files 40 and 41). -/

namespace Sys2Proof.Machine

/-- ZERO Ed (R130). -/
def execZero (rd : Reg) (s : State) : Result := command s true [] (succeed (s.setElem rd zeroV))

/-- ONE Ed (R131). -/
def execOne (rd : Reg) (s : State) : Result := command s true [] (succeed (s.setElem rd oneV))

/-- MOV Ed, Es: all 320 bits, the source not checked (R116). -/
def execMov (rd rs1 : Reg) (s : State) : Result := command s true [] (succeed (s.setElem rd (s.elem rs1)))

/-- CANON Ed, Es: the source not checked (R117). -/
def execCanon (rd rs1 : Reg) (s : State) : Result :=
  command s true [] (succeed (s.setElem rd (canonicalize (s.elem rs1))))

end Sys2Proof.Machine
end

