-- ==== Sys2Proof/Machine/Predicates.lean ====
section
/-! DEFINITION. ISZERO, ISONE, TRACE: the commands that answer in RESULT (files 41 and 47). -/

namespace Sys2Proof.Machine

/-- ISZERO Es (R132). -/
def execIszero (rs1 : Reg) (s : State) : Result :=
  command s true [rs1] (succeed (s.setResult (boolWord (s.elem rs1 == zeroV))))

/-- ISONE Es (R133). -/
def execIsone (rs1 : Reg) (s : State) : Result :=
  command s true [rs1] (succeed (s.setResult (boolWord (s.elem rs1 == oneV))))

/-- TRACE Es (R211). -/
def execTrace (rs1 : Reg) (s : State) : Result :=
  command s true [rs1] (succeed (s.setResult (boolWord (trace (s.elem rs1)))))

end Sys2Proof.Machine
end

