-- ==== Sys2Proof/Machine/Serial.lean ====
section
/-! DEFINITION. TOBIN, FROMBIN, TOHEX, FROMHEX: the serializer (48_serialization.md). -/

namespace Sys2Proof.Machine

/-- What TOBIN and TOHEX share: the string in TXT, its length without the terminator in RESULT (R27, R225, R235). -/
def writeString (s : State) (str : List Byte) : Result :=
  succeed ((s.setText str).setResult (BitVec.ofNat 32 str.length))

/-- TOBIN Es, cap (R225). -/
def execTobin (rs1 : Reg) (cap : Cap) (s : State) : Result :=
  command s (capLegal cap) [rs1]
    (if cap.toNat < Config.binBuffer then failWith s .bufferTooSmall else writeString s (binString (s.elem rs1)))

/-- FROMBIN Ed (R230). -/
def execFrombin (rd : Reg) (s : State) : Result :=
  command s true []
    (match parseBin s.txt with
      | some z => succeed (s.setElem rd z)
      | none => failWith s .invalidFormat)

/-- TOHEX Es, cap (R235): the capacity is tested against the full width, not the stripped length. -/
def execTohex (rs1 : Reg) (cap : Cap) (s : State) : Result :=
  command s (capLegal cap) [rs1]
    (if cap.toNat < Config.hexBuffer then failWith s .bufferTooSmall
      else writeString s (hexString Config.hexUpper (s.elem rs1)))

/-- FROMHEX Ed (R240). -/
def execFromhex (rd : Reg) (s : State) : Result :=
  command s true []
    (match parseHex s.txt with
      | .ok z => succeed (s.setElem rd z)
      | .error k => failWith s k)

end Sys2Proof.Machine
end

