-- ==== Sys2Proof/Machine/Dispatch.lean ====
section
/-! DEFINITION. One arm for each command: `Run` on a decoded command (R84). -/

namespace Sys2Proof.Machine

def exec (i : Instr) (s : State) : Host.Outcome State Fault Refusal :=
  match i with
  | .zero rd => Sys2Proof.Machine.execZero rd s
  | .one rd => Sys2Proof.Machine.execOne rd s
  | .mov rd rs1 => Sys2Proof.Machine.execMov rd rs1 s
  | .canon rd rs1 => Sys2Proof.Machine.execCanon rd rs1 s
  | .iszero rs1 => Sys2Proof.Machine.execIszero rs1 s
  | .isone rs1 => Sys2Proof.Machine.execIsone rs1 s
  | .trace rs1 => Sys2Proof.Machine.execTrace rs1 s
  | .add rd rs1 rs2 => Sys2Proof.Machine.execAdd rd rs1 rs2 s
  | .sqr rd rs1 => Sys2Proof.Machine.execSqr rd rs1 s
  | .mul rd rs1 rs2 => Sys2Proof.Machine.execMul rd rs1 rs2 s
  | .pow rd rs1 rs2 => Sys2Proof.Machine.execPow rd rs1 rs2 s
  | .inv rd rs1 => Sys2Proof.Machine.execInv rd rs1 s
  | .tobin rs1 cap => Sys2Proof.Machine.execTobin rs1 cap s
  | .frombin rd => Sys2Proof.Machine.execFrombin rd s
  | .tohex rs1 cap => Sys2Proof.Machine.execTohex rs1 cap s
  | .fromhex rd => Sys2Proof.Machine.execFromhex rd s

end Sys2Proof.Machine
end

