-- ==== Sys2Proof/Machine/Port.lean ====
section
/-! DEFINITION. The host port (20_memory.md): the address map (R54), `HostRead` (R52), `HostWrite` (R53), protocol errors (R59), and reset (70_reset_and_hazards.md). -/

namespace Sys2Proof.Machine

/-- What an offset of the host space names (R54). -/
inductive Target where
  | cmd
  | status
  | result
  | elemWord (r : Reg) (k : WordIdx)
  | txtWord (j : Fin 128)
  | unmapped
  deriving DecidableEq, Repr

/-- The address map (R54), for an offset that is a multiple of 4. -/
def hostTarget (off : Offset) : Target :=
  if off.toNat = 0x000 then .cmd
  else if off.toNat = 0x004 then .status
  else if off.toNat = 0x008 then .result
  else if h : 0x100 ≤ off.toNat ∧ off.toNat < 0x300 then
    if hk : (off.toNat - 0x100) % 0x40 / 4 < 10 then
      .elemWord ⟨(off.toNat - 0x100) / 0x40, by omega⟩ ⟨(off.toNat - 0x100) % 0x40 / 4, hk⟩
    else .unmapped
  else if h : 0x400 ≤ off.toNat ∧ off.toNat < 0x600 then .txtWord ⟨(off.toNat - 0x400) / 4, by omega⟩
  else .unmapped

/-- off[1:0] ≠ 0 (R60). -/
def misaligned (off : Offset) : Bool := off.extractLsb' 0 2 != 0

/-- The value a legal read returns, `none` for a protocol error (R52). STATUS is readable while BUSY = 1, nothing else is (R58). -/
def hostReadValue (s : State) (off : Offset) : Option Word :=
  if misaligned off then none
  else
    match hostTarget off with
    | .status => some (statusWord s)
    | .result => if s.busy then none else some s.result
    | .elemWord r k => if s.busy then none else some (elemWord (s.elem r) k)
    | .txtWord j => if s.busy then none else some (txtWord s.txt j)
    | .cmd => none
    | .unmapped => none

/-- A protocol error: HERR rises and stays (R59). -/
def State.protocolError (s : State) : State := { s with herr := true }

/-- The value a read returns to the host, kept in the model's own record (notes/assumptions/4.md). -/
def State.reply (s : State) (d : Word) : State := { s with replies := d :: s.replies }

/-- `HostRead(off)` (R52): a protocol error returns 0 and sets HERR. -/
def hostRead (s : State) (off : Offset) : State :=
  match hostReadValue s off with
  | some d => s.reply d
  | none => s.protocolError.reply 0

/-- A write to CMD accepts the word as a command (R31). -/
def State.accept (s : State) (cw : Word) : State := { s with pend := cw, busy := true }

/-- `HostWrite(off, d)` (R53): a protocol error drops the write and sets HERR. -/
def hostWrite (s : State) (off : Offset) (d : Word) : State :=
  if misaligned off then s.protocolError
  else if s.busy then s.protocolError
  else
    match hostTarget off with
    | .cmd => s.accept d
    | .elemWord r k => s.setElem r (setElemWord (s.elem r) k d)
    | .txtWord j => { s with txt := setTxtWord s.txt j d }
    | .status => s.protocolError
    | .result => s.protocolError
    | .unmapped => s.protocolError

/-- Reset (R300 to R302): the values of R39, what it leaves unspecified drawn anew; the host's events still to come and what it has read are the host's own and stay. -/
def hostReset (s : State) (draw : ResetDraw) : State :=
  { State.reset with
    regs := draw.regs
    txt := memOfCells draw.txt
    pend := draw.pend
    tbl := draw.tbl
    hostIn := s.hostIn
    replies := s.replies }

end Sys2Proof.Machine
end

