-- ==== Sys2Proof/Machine/Run.lean ====
section
/-! DEFINITION. The core step on the pending command word (R31, R84), one event of the host's stream, and the placing of a pending command. -/

namespace Sys2Proof.Machine

/-- The core step, `Run(pend)` (R31, R84): the command the word encodes, or IllegalCommand. -/
def runPending (s : State) : Result :=
  match decode s.pend with
  | .ok i => exec i s
  | .error _ => illegalWord s

/-- The core's turn: its step if BUSY = 1, else nothing is enabled and the state is stable (R31, R62). -/
def coreTurn (s : State) : Result := if s.busy then runPending s else .next s

/-- One event, in a state from whose stream it has been taken (R37, R38, R300). -/
def takeEvent (s : State) : HostEvent → Result
  | .read off => .next (hostRead s off)
  | .write off d => .next (hostWrite s off d)
  | .coreTurn => coreTurn s
  | .reset draw => .next (hostReset s draw)

/-- The rest of the stream, its first event taken. -/
def State.setStream (s : State) (es : List HostEvent) : State := { s with hostIn := es }

/-- A word accepted as a command, the core's turn next (R31). -/
def placeCommand (s : State) (cw : Word) : State := (s.accept cw).setStream (.coreTurn :: s.hostIn)

end Sys2Proof.Machine
end

