-- ==== Sys2Proof/Machine/Step.lean ====
section
/-! DEFINITION. One step of the machine: the next event of the host's stream, or, when the host has none left, the core's turn (R31, R37, R38). -/

namespace Sys2Proof.Machine

/-- One step. The stream says which agent moves (notes/assumptions/4.md); a block left alone takes its core step (R31's fairness) and, idle, holds its state (R286). -/
def step (s : State) : Host.Outcome State Fault Refusal :=
  match s.hostIn with
  | [] => coreTurn s
  | e :: es => takeEvent (s.setStream es) e

/-- `s` with an instruction whose table bits are `w` as the accepted command and the core's turn next, so that the next step runs it (R30, R31; notes/assumptions/10.md). -/
def State.withFetchWord (s : State) (nbits w : Nat) : State := placeCommand s (tableWord nbits w)

end Sys2Proof.Machine
end

