-- ==== Sys2Proof/Safety.lean ====
section
/-! DEFINITION. What counts as a sound state and a safe run, in the terms the statements use. -/

namespace Sys2Proof.Machine

/-- What holds in every state a run reaches: TXT is in canonical form, the builder has not failed (R166), and a ready table is T (R310). -/
abbrev State.Inv (s : State) : Prop :=
  Memory.wf s.txt ∧ s.fatal = false ∧ (s.tblReady = true → s.tbl = table)

/-- The host has kept the protocol since reset (R59, R272). -/
def State.protocolKept (s : State) : Bool := !s.herr

/-- `k` steps from `s` all answer a next state, the last one `t`. -/
def State.runsTo (s : State) (k : Nat) (t : State) : Prop := Sys2Proof.core.run k s = .next t

/-- A safe run: `k` steps from `s` lead to a state in which HERR is 0: the host has kept the protocol since the last reset (R59, R302). -/
def SafeFor (k : Nat) (s : State) : Prop := ∃ t, s.runsTo k t ∧ t.protocolKept = true

/-- `u` is the state in which the core takes its step: `s` itself when the stream is empty, `s` with the core's turn taken from it when that comes next (R31). -/
def State.atCoreTurn (s u : State) : Prop :=
  (s.hostIn = [] ∧ u = s) ∨ ∃ es, s.hostIn = .coreTurn :: es ∧ u = s.setStream es

/-- Two states that the host cannot tell apart: all fields agree but the hidden table and its ready bit (R35). -/
def State.sameToHost (s t : State) : Prop := { s with tbl := t.tbl, tblReady := t.tblReady } = t

/-- Every element register holds what it held. -/
def State.sameElems (s t : State) : Prop := ∀ r, t.elem r = s.elem r

/-- Every element register but `rd` holds what it held. -/
def State.sameElemsBut (s t : State) (rd : Reg) : Prop := ∀ r, r ≠ rd → t.elem r = s.elem r

/-- Every byte of TXT reads as before. -/
def State.sameText (s t : State) : Prop := ∀ k, memRead t.txt k = memRead s.txt k

/-- The hidden table and its ready bit are as before. -/
def State.sameTable (s t : State) : Prop := t.tbl = s.tbl ∧ t.tblReady = s.tblReady

/-- FATAL, HERR, the pending word, the host's stream and its record are as before: no command that succeeds writes them. -/
def State.sameControl (s t : State) : Prop :=
  t.fatal = s.fatal ∧ t.herr = s.herr ∧ t.pend = s.pend ∧ t.hostIn = s.hostIn ∧ t.replies = s.replies

/-- All is as before but STATUS.ERR and BUSY (R266). -/
def State.unchanged (s t : State) : Prop :=
  s.sameElems t ∧ s.sameText t ∧ t.result = s.result ∧ s.sameTable t ∧ s.sameControl t

/-- All is as before but register `rd`, STATUS.ERR and BUSY. -/
def State.onlyElem (s t : State) (rd : Reg) : Prop :=
  s.sameElemsBut t rd ∧ s.sameText t ∧ t.result = s.result ∧ s.sameTable t ∧ s.sameControl t

/-- All is as before but register `rd`, STATUS.ERR, BUSY and, when `mul` was evaluated, the table's first build (R168). -/
def State.onlyProduct (s t : State) (rd : Reg) (used : Bool) : Prop :=
  s.sameElemsBut t rd ∧ s.sameText t ∧ t.result = s.result ∧ s.sameControl t ∧
    (used = false → s.sameTable t) ∧ (used = true → t.tblReady = true ∧ t.tbl = table)

/-- All is as before but RESULT, STATUS.ERR and BUSY. -/
def State.onlyResult (s t : State) : Prop := s.sameElems t ∧ s.sameText t ∧ s.sameTable t ∧ s.sameControl t

/-- All is as before but RESULT, STATUS.ERR, BUSY and the bytes of TXT below index `n`. -/
def State.onlyText (s t : State) (n : Nat) : Prop :=
  s.sameElems t ∧ (∀ k, n ≤ k → memRead t.txt k = memRead s.txt k) ∧ s.sameTable t ∧ s.sameControl t

/-- A command has ended with the outcome `k` (R31, R260). -/
def State.ended (t : State) (k : ErrKind) : Prop := t.err = k ∧ t.busy = false

/-- The command ends with the outcome `k` and writes nothing else (R266). -/
def failsWith (i : Instr) (s : State) (k : ErrKind) : Prop := ∃ t, exec i s = .next t ∧ t.ended k ∧ s.unchanged t

/-- The outcomes a legal command can end with while FATAL = 0 (R262). -/
def possibleOutcomes : Instr → List ErrKind
  | .zero _ => [.ok]
  | .one _ => [.ok]
  | .mov _ _ => [.ok]
  | .canon _ _ => [.ok]
  | .iszero _ => [.ok, .nonCanonical]
  | .isone _ => [.ok, .nonCanonical]
  | .trace _ => [.ok, .nonCanonical]
  | .add _ _ _ => [.ok, .nonCanonical]
  | .sqr _ _ => [.ok, .nonCanonical]
  | .mul _ _ _ => [.ok, .nonCanonical]
  | .pow _ _ _ => [.ok, .nonCanonical]
  | .inv _ _ => [.ok, .nonCanonical]
  | .tobin _ _ => [.ok, .bufferTooSmall, .nonCanonical]
  | .frombin _ => [.ok, .invalidFormat]
  | .tohex _ _ => [.ok, .bufferTooSmall, .nonCanonical]
  | .fromhex _ => [.ok, .invalidFormat, .invalidDigit, .overflow]

end Sys2Proof.Machine
end

