-- ==== Sys2Proof/Certificates/Slice0/Obligations.lean ====
section
/-! DEFINITION. The statements for the provers, from the numbered rules of spec/. `exec i s` is `Run` on a decoded command in the state its core step finds (R84). -/

open Sys2Proof Sys2Proof.Machine

-- Encoding (30_encoding.md)

/-- Every legal command is read back from its word with every operand at every value. -/
def Obligations.DecodeEncodeRoundTrip : Prop := ∀ i : Instr, i.wf = true → decode (encode i) = .ok i

/-- A word the decoder accepts is the encoding of a legal command: no bit of it is dropped (R85, R88). -/
def Obligations.LegalWordIsItsEncoding : Prop :=
  ∀ (cw : Word) (i : Instr), decode cw = .ok i → i.wf = true ∧ encode i = cw

/-- R94: a row's command is selected exactly by its match and mask (and, for format SC, CAP ≤ 512); a word that matches no row is illegal; no word matches two rows. -/
def Obligations.MatchAndMaskSelect : Prop :=
  (∀ row ∈ encodingRows, ∀ cw : Word,
    (∃ i, decode cw = .ok i ∧ i.opcode = row.1) ↔
      (cw &&& row.2.1 = rowMatch row.1 ∧ (row.2.2 = true → (capField cw).toNat ≤ 512))) ∧
  (∀ cw : Word, (∀ row ∈ encodingRows, cw &&& row.2.1 ≠ rowMatch row.1) → ∃ e, decode cw = .error e) ∧
  (∀ (cw : Word), ∀ row ∈ encodingRows, ∀ row' ∈ encodingRows,
    cw &&& row.2.1 = rowMatch row.1 → cw &&& row'.2.1 = rowMatch row'.1 → row = row')

/-- Words that the spec writes out for commands of every family, and words it calls illegal, decode so. -/
def Obligations.SpecWordsDecode : Prop :=
  decode 0x01300000 = .ok (.zero 3) ∧ decode 0x03410000 = .ok (.mov 4 1) ∧ decode 0x08020000 = .ok (.iszero 2) ∧
  decode 0x10201000 = .ok (.add 2 0 1) ∧ decode 0x12201000 = .ok (.mul 2 0 1) ∧ decode 0x14100000 = .ok (.inv 1 0) ∧
  decode 0x20000126 = .ok (.tobin 0 294) ∧ decode 0x2203004B = .ok (.tohex 3 75) ∧ decode 0x23500000 = .ok (.fromhex 5) ∧
  decode 0x05000000 = .error .reservedOpcode ∧ decode 0x11180000 = .error .reservedRegister ∧
  decode 0x11100001 = .error .unusedField ∧ decode 0x22000201 = .error .capacity

-- The machine

/-- R31, R84: when BUSY = 1 and the core's turn has come, a step is `exec` of the command that the pending word decodes to. -/
def Obligations.StepRunsDecodedCommand : Prop :=
  ∀ (s u : State) (i : Instr), s.busy = true → s.atCoreTurn u → decode s.pend = .ok i → step s = exec i u

/-- R31, R53: a host that writes the word of a legal command to CMD of an idle block has that command run at the core's turn. -/
def Obligations.HostIssuedCommandRuns : Prop :=
  ∀ (s : State) (i : Instr) (es : List HostEvent), i.wf = true → s.busy = false →
    s.hostIn = .write 0x000 (encode i) :: .coreTurn :: es →
    Sys2Proof.core.run 2 s = exec i ((s.accept (encode i)).setStream es)

/-- R263: a word that fails `Legal` ends with outcome 0x10 and has no other effect. -/
def Obligations.IllegalWordOnlySetsErr : Prop :=
  ∀ (s u : State) (e : DecodeError), s.busy = true → s.fatal = false → s.atCoreTurn u → decode s.pend = .error e →
    ∃ t, step s = .next t ∧ t.ended .illegalCommand ∧ errCode t.err = 0x10 ∧ u.unchanged t

/-- R170: while FATAL = 1 every command word ends with TableFatal and no other effect; FATAL stays until reset. -/
def Obligations.FatalEndsEveryCommand : Prop :=
  (∀ s u : State, s.busy = true → s.fatal = true → s.atCoreTurn u →
    ∃ t, step s = .next t ∧ t.ended .tableFatal ∧ u.unchanged t) ∧
  (∀ s t : State, s.fatal = true → (∀ d es, s.hostIn ≠ .reset d :: es) → step s = .next t → t.fatal = true)

/-- R274: every state has a next state, and every command completes, in every state. -/
def Obligations.EveryStepAnswersNext : Prop :=
  (∀ s : State, ∃ t, step s = .next t) ∧ (∀ (i : Instr) (s : State), ∃ t, exec i s = .next t)

/-- R166, R310: TXT's canonical form, FATAL = 0 and `tbl_ready` = 1 implies `tbl` = T are kept by every step. -/
def Obligations.StepKeepsInv : Prop := ∀ s t : State, s.Inv → step s = .next t → t.Inv

/-- The invariant holds after reset. -/
def Obligations.ResetMeetsInv : Prop := State.reset.Inv

/-- R23: every command but MOV writes canonical values only; a register turns non-canonical only by a reset, by a host write to word 9 with one of bits 31 to 5 set, or by MOV from such a register. -/
def Obligations.NonCanonicalOrigins : Prop :=
  (∀ (i : Instr) (s t : State), (∀ rd rs1, i ≠ .mov rd rs1) → exec i s = .next t →
    ∀ r, t.elem r = s.elem r ∨ isCanonical (t.elem r) = true) ∧
  (∀ (s t : State) (r : Reg), step s = .next t → isCanonical (s.elem r) = true → isCanonical (t.elem r) = false →
    (∃ d es, s.hostIn = .reset d :: es) ∨
    (∃ off d es, s.hostIn = .write off d :: es ∧ off.toNat = 0x100 + 0x40 * r.val + 4 * 9 ∧ d.extractLsb' 5 27 ≠ 0) ∨
    (s.busy = true ∧ ∃ rs1, decode s.pend = .ok (.mov r rs1) ∧ isCanonical (s.elem rs1) = false))

/-- R40, R266: a command word, legal or not, whose outcome is not OK changes nothing but ERR and BUSY. -/
def Obligations.FailureWritesOnlyOutcome : Prop :=
  (∀ (i : Instr) (s t : State), exec i s = .next t → t.err ≠ .ok → t.busy = false ∧ s.unchanged t) ∧
  (∀ s t : State, runPending s = .next t → t.err ≠ .ok → t.busy = false ∧ s.unchanged t)

/-- R262: while FATAL = 0 a legal command ends with one of the outcomes of its row. -/
def Obligations.OutcomesOfEachCommand : Prop :=
  ∀ (i : Instr) (s t : State), i.wf = true → s.fatal = false → exec i s = .next t → t.err ∈ possibleOutcomes i

-- The host port (20_memory.md)

/-- R52: `HostRead(off)`. A read answers `v`, raises HERR if it is a protocol error (`bad`), and changes nothing else. -/
def Obligations.HostReadFollowsMap : Prop :=
  ∀ (s : State) (off : Offset) (es : List HostEvent), s.hostIn = .read off :: es →
    ∃ (v : Word) (bad : Bool),
      step s = .next { s with hostIn := es, replies := v :: s.replies, herr := s.herr || bad } ∧
      (off.toNat % 4 ≠ 0 → v = 0 ∧ bad = true) ∧
      (off.toNat = 0x004 → v = statusWord s ∧ bad = false) ∧
      (s.busy = true → off.toNat ≠ 0x004 → v = 0 ∧ bad = true) ∧
      (s.busy = false → off.toNat = 0x008 → v = s.result ∧ bad = false) ∧
      (s.busy = false → ∀ (r : Reg) (k : WordIdx), off.toNat = 0x100 + 0x40 * r.val + 4 * k.val →
        v = elemWord (s.elem r) k ∧ bad = false) ∧
      (s.busy = false → ∀ j < 128, off.toNat = 0x400 + 4 * j →
        (∀ n < 4, v.extractLsb' (8 * n) 8 = memRead s.txt (4 * j + n)) ∧ bad = false) ∧
      (off.toNat ≠ 0x004 → off.toNat ≠ 0x008 →
        (∀ (r : Reg) (k : WordIdx), off.toNat ≠ 0x100 + 0x40 * r.val + 4 * k.val) →
        (∀ j < 128, off.toNat ≠ 0x400 + 4 * j) → v = 0 ∧ bad = true)

/-- R53: `HostWrite(off, d)`. -/
def Obligations.HostWriteFollowsMap : Prop :=
  ∀ (s : State) (off : Offset) (d : Word) (es : List HostEvent), Memory.wf s.txt → s.hostIn = .write off d :: es →
    ((off.toNat % 4 ≠ 0 ∨ s.busy = true) → step s = .next { s with hostIn := es, herr := true }) ∧
    (s.busy = false → off.toNat = 0x000 → step s = .next { s with hostIn := es, pend := d, busy := true }) ∧
    (s.busy = false → ∀ (r : Reg) (k : WordIdx), off.toNat = 0x100 + 0x40 * r.val + 4 * k.val →
      ∃ x, step s = .next { s with hostIn := es, regs := s.regs.set r x } ∧
        elemWord x k = d ∧ ∀ q, q ≠ k → elemWord x q = elemWord (s.elem r) q) ∧
    (s.busy = false → ∀ j < 128, off.toNat = 0x400 + 4 * j →
      ∃ m, step s = .next { s with hostIn := es, txt := m } ∧
        (∀ n < 4, memRead m (4 * j + n) = d.extractLsb' (8 * n) 8) ∧
        ∀ k, (k < 4 * j ∨ 4 * j + 4 ≤ k) → memRead m k = memRead s.txt k) ∧
    (off.toNat ≠ 0x000 → (∀ (r : Reg) (k : WordIdx), off.toNat ≠ 0x100 + 0x40 * r.val + 4 * k.val) →
      (∀ j < 128, off.toNat ≠ 0x400 + 4 * j) → step s = .next { s with hostIn := es, herr := true })

/-- R59: HERR is cleared by nothing but reset, and no command depends on it. -/
def Obligations.HerrStaysAndStopsNothing : Prop :=
  (∀ s t : State, s.herr = true → (∀ d es, s.hostIn ≠ .reset d :: es) → step s = .next t → t.herr = true) ∧
  (∀ (i : Instr) (s t : State) (b : Bool), exec i s = .next t →
    exec i { s with herr := b } = .next { t with herr := b })

/-- R26: the fields of STATUS; R261: the outcome codes by number. -/
def Obligations.StatusRegisterFields : Prop :=
  (∀ s : State, (statusWord s).getLsbD 0 = s.busy ∧ (statusWord s).getLsbD 1 = s.fatal ∧
    (statusWord s).getLsbD 2 = s.herr ∧ (statusWord s).extractLsb' 3 5 = 0 ∧
    (statusWord s).extractLsb' 8 8 = errCode s.err ∧ (statusWord s).extractLsb' 16 16 = 0) ∧
  errCode .ok = 0x00 ∧ errCode .invalidFormat = 0x01 ∧ errCode .invalidDigit = 0x02 ∧ errCode .overflow = 0x03 ∧
  errCode .bufferTooSmall = 0x04 ∧ errCode .illegalCommand = 0x10 ∧ errCode .nonCanonical = 0x11 ∧
  errCode .tableFatal = 0x1F

/-- R26, R260: ERR changes only when a command completes (BUSY falls at the core's turn) or by a reset. -/
def Obligations.ErrWrittenAtCompletion : Prop :=
  ∀ s t : State, step s = .next t → t.err ≠ s.err →
    (s.busy = true ∧ t.busy = false ∧ ∃ u, s.atCoreTurn u) ∨ ∃ d es, s.hostIn = .reset d :: es

/-- R67: what an idle block's host writes to an element word or to TXT it reads back. -/
def Obligations.WriteThenReadBack : Prop :=
  ∀ (s : State) (off : Offset) (d : Word) (es : List HostEvent), Memory.wf s.txt → s.busy = false →
    s.hostIn = .write off d :: .read off :: es →
    ((∃ (r : Reg) (k : WordIdx), off.toNat = 0x100 + 0x40 * r.val + 4 * k.val) ∨
      ∃ j < 128, off.toNat = 0x400 + 4 * j) →
    ∃ t, s.runsTo 2 t ∧ t.replies = d :: s.replies ∧ t.herr = s.herr

/-- R31: in a block with BUSY = 1, BUSY falls, by the core step or by a reset, after no more steps than the stream has events, and one. The bound is that of the model's stream (notes/assumptions/4.md, DESIGN CHOICE). -/
def Obligations.BusyFalls : Prop :=
  ∀ s : State, s.busy = true → ∃ k ≤ s.hostIn.length + 1, ∃ t, s.runsTo k t ∧ t.busy = false

/-- R301: reset leaves STATUS, RESULT and `tbl_ready` at 0, whatever it draws and whenever it comes, and it can leave any registers, text, pending word and table store. That it leaves the rest of the stream and the record of reads as they are is the model's choice (notes/assumptions/4.md, DESIGN CHOICE); the form of the draw is notes/assumptions/5.md (DEDUCED). -/
def Obligations.ResetLeavesTheRestOpen : Prop :=
  (statusWord State.reset = 0 ∧ State.reset.result = 0 ∧ State.reset.tblReady = false) ∧
  (∀ (s : State) (draw : ResetDraw) (es : List HostEvent), s.hostIn = .reset draw :: es →
    ∃ t, step s = .next t ∧ statusWord t = 0 ∧ t.result = 0 ∧ t.tblReady = false ∧ t.hostIn = es ∧
      t.replies = s.replies) ∧
  (∀ (regs : Vector Elem 8) (bytes : Nat → Byte) (pend : Word) (tbl : List Pair), ∃ draw : ResetDraw,
    ∀ (s : State) (es : List HostEvent), s.hostIn = .reset draw :: es →
      ∃ t, step s = .next t ∧ t.regs = regs ∧ (∀ k < 512, memRead t.txt k = bytes k) ∧ t.pend = pend ∧ t.tbl = tbl)

/-- R35: two sound states that differ only in the table and its ready bit stay indistinguishable to the host for any number of steps. -/
def Obligations.TableHiddenFromHost : Prop :=
  ∀ (s t : State) (k : Nat), s.Inv → t.Inv → s.sameToHost t →
    ∃ s' t', s.runsTo k s' ∧ t.runsTo k t' ∧ s'.sameToHost t'

-- The commands, each with its encoding, its effect, its frame and its failures

/-- R130. -/
def Obligations.ZeroCommand : Prop :=
  ∀ (d : Reg) (s : State),
    (encode (.zero d)).toNat = 0x01000000 + 0x100000 * d.val ∧
    (s.fatal = false → ∃ t, exec (.zero d) s = .next t ∧ t.ended .ok ∧ (∀ k, elemWord (t.elem d) k = 0) ∧ s.onlyElem t d) ∧
    (s.fatal = true → failsWith (.zero d) s .tableFatal)

/-- R131 with the words of ONE_V (R137). -/
def Obligations.OneCommand : Prop :=
  ∀ (d : Reg) (s : State),
    (encode (.one d)).toNat = 0x02000000 + 0x100000 * d.val ∧
    (s.fatal = false → ∃ t, exec (.one d) s = .next t ∧ t.ended .ok ∧
      (∀ k, elemWord (t.elem d) k = if k = 9 then 0x0000001F else 0xFFFFFFFF) ∧ s.onlyElem t d) ∧
    (s.fatal = true → failsWith (.one d) s .tableFatal)

/-- R116: all 320 bits, the source not checked. -/
def Obligations.MovCommand : Prop :=
  ∀ (d a : Reg) (s : State),
    (encode (.mov d a)).toNat = 0x03000000 + 0x100000 * d.val + 0x10000 * a.val ∧
    (s.fatal = false → ∃ t, exec (.mov d a) s = .next t ∧ t.ended .ok ∧ t.elem d = s.elem a ∧ s.onlyElem t d) ∧
    (s.fatal = true → failsWith (.mov d a) s .tableFatal)

/-- R117: words 0 to 8 copied, word 9 masked with 0x1F, the source not checked. -/
def Obligations.CanonCommand : Prop :=
  ∀ (d a : Reg) (s : State),
    (encode (.canon d a)).toNat = 0x04000000 + 0x100000 * d.val + 0x10000 * a.val ∧
    (s.fatal = false → ∃ t, exec (.canon d a) s = .next t ∧ t.ended .ok ∧
      (∀ k, elemWord (t.elem d) k =
        if k = 9 then elemWord (s.elem a) 9 &&& 0x0000001F else elemWord (s.elem a) k) ∧
      isCanonical (t.elem d) = true ∧ s.onlyElem t d) ∧
    (s.fatal = true → failsWith (.canon d a) s .tableFatal)

/-- R132: RESULT is 1 exactly when all ten words are 0. -/
def Obligations.IszeroCommand : Prop :=
  ∀ (a : Reg) (s : State),
    (encode (.iszero a)).toNat = 0x08000000 + 0x10000 * a.val ∧
    (s.fatal = false → isCanonical (s.elem a) = true → ∃ t, exec (.iszero a) s = .next t ∧ t.ended .ok ∧
      t.result = (if ∀ k, elemWord (s.elem a) k = 0 then 1 else 0) ∧ s.onlyResult t) ∧
    (s.fatal = false → isCanonical (s.elem a) = false → failsWith (.iszero a) s .nonCanonical) ∧
    (s.fatal = true → failsWith (.iszero a) s .tableFatal)

/-- R133: RESULT is 1 exactly when the words are those of ONE_V. -/
def Obligations.IsoneCommand : Prop :=
  ∀ (a : Reg) (s : State),
    (encode (.isone a)).toNat = 0x09000000 + 0x10000 * a.val ∧
    (s.fatal = false → isCanonical (s.elem a) = true → ∃ t, exec (.isone a) s = .next t ∧ t.ended .ok ∧
      t.result = (if ∀ k, elemWord (s.elem a) k = (if k = 9 then 0x0000001F else 0xFFFFFFFF) then 1 else 0) ∧
      s.onlyResult t) ∧
    (s.fatal = false → isCanonical (s.elem a) = false → failsWith (.isone a) s .nonCanonical) ∧
    (s.fatal = true → failsWith (.isone a) s .tableFatal)

/-- R211 with R210: RESULT is the parity of the number of one bits. -/
def Obligations.TraceCommand : Prop :=
  ∀ (a : Reg) (s : State),
    (encode (.trace a)).toNat = 0x0A000000 + 0x10000 * a.val ∧
    (s.fatal = false → isCanonical (s.elem a) = true → ∃ t, exec (.trace a) s = .next t ∧ t.ended .ok ∧
      t.result.toNat = popcount (s.elem a) % 2 ∧ s.onlyResult t) ∧
    (s.fatal = false → isCanonical (s.elem a) = false → failsWith (.trace a) s .nonCanonical) ∧
    (s.fatal = true → failsWith (.trace a) s .tableFatal)

/-- R135 with R134: word-wise exclusive-or. -/
def Obligations.AddCommand : Prop :=
  ∀ (d a b : Reg) (s : State),
    (encode (.add d a b)).toNat = 0x10000000 + 0x100000 * d.val + 0x10000 * a.val + 0x1000 * b.val ∧
    (s.fatal = false → isCanonical (s.elem a) = true → isCanonical (s.elem b) = true →
      ∃ t, exec (.add d a b) s = .next t ∧ t.ended .ok ∧
        (∀ k, elemWord (t.elem d) k = elemWord (s.elem a) k ^^^ elemWord (s.elem b) k) ∧ s.onlyElem t d) ∧
    (s.fatal = false → (isCanonical (s.elem a) = false ∨ isCanonical (s.elem b) = false) →
      failsWith (.add d a b) s .nonCanonical) ∧
    (s.fatal = true → failsWith (.add d a b) s .tableFatal)

/-- R151 with R150: every valid position moves up by one, position 292 to position 0. -/
def Obligations.SqrCommand : Prop :=
  ∀ (d a : Reg) (s : State),
    (encode (.sqr d a)).toNat = 0x11000000 + 0x100000 * d.val + 0x10000 * a.val ∧
    (s.fatal = false → isCanonical (s.elem a) = true → ∃ t, exec (.sqr d a) s = .next t ∧ t.ended .ok ∧
      (t.elem d).getLsbD 0 = (s.elem a).getLsbD 292 ∧
      (∀ i, 1 ≤ i → i ≤ 292 → (t.elem d).getLsbD i = (s.elem a).getLsbD (i - 1)) ∧
      (∀ i, 293 ≤ i → (t.elem d).getLsbD i = false) ∧ s.onlyElem t d) ∧
    (s.fatal = false → isCanonical (s.elem a) = false → failsWith (.sqr d a) s .nonCanonical) ∧
    (s.fatal = true → failsWith (.sqr d a) s .tableFatal)

/-- R182 with the formula of R180: position i of the product is the exclusive-or over the pairs (x, y) of T of u at i + x and v at i + y, modulo 293. -/
def Obligations.MulCommand : Prop :=
  ∀ (d a b : Reg) (s : State),
    (encode (.mul d a b)).toNat = 0x12000000 + 0x100000 * d.val + 0x10000 * a.val + 0x1000 * b.val ∧
    (s.fatal = false → (s.tblReady = true → s.tbl = table) →
      isCanonical (s.elem a) = true → isCanonical (s.elem b) = true →
      ∃ t, exec (.mul d a b) s = .next t ∧ t.ended .ok ∧
        (∀ i < 293, (t.elem d).getLsbD i = decide ((table.countP fun p =>
          (s.elem a).getLsbD ((i + p.1.val) % 293) && (s.elem b).getLsbD ((i + p.2.val) % 293)) % 2 = 1)) ∧
        (∀ i, 293 ≤ i → (t.elem d).getLsbD i = false) ∧ s.onlyProduct t d true) ∧
    (s.fatal = false → (isCanonical (s.elem a) = false ∨ isCanonical (s.elem b) = false) →
      failsWith (.mul d a b) s .nonCanonical) ∧
    (s.fatal = true → failsWith (.mul d a b) s .tableFatal)

/-- R192 with the loop of R193: the accumulator over positions 292 down to 0. -/
def Obligations.PowCommand : Prop :=
  ∀ (d a b : Reg) (s : State),
    (encode (.pow d a b)).toNat = 0x13000000 + 0x100000 * d.val + 0x10000 * a.val + 0x1000 * b.val ∧
    (s.fatal = false → (s.tblReady = true → s.tbl = table) →
      isCanonical (s.elem a) = true → isCanonical (s.elem b) = true →
      ∃ t, exec (.pow d a b) s = .next t ∧ t.ended .ok ∧
        t.elem d = (List.finRange 293).foldl
          (fun r (k : Pos) => if getBit (s.elem b) k.rev then mul table (sqr r) (s.elem a) else sqr r) oneV ∧
        s.onlyProduct t d (s.elem b != zeroV)) ∧
    (s.fatal = false → (isCanonical (s.elem a) = false ∨ isCanonical (s.elem b) = false) →
      failsWith (.pow d a b) s .nonCanonical) ∧
    (s.fatal = true → failsWith (.pow d a b) s .tableFatal)

/-- R201 with the loop of R200: zero to zero, else 292 times square t and multiply inv by t. -/
def Obligations.InvCommand : Prop :=
  ∀ (d a : Reg) (s : State),
    (encode (.inv d a)).toNat = 0x14000000 + 0x100000 * d.val + 0x10000 * a.val ∧
    (s.fatal = false → (s.tblReady = true → s.tbl = table) → isCanonical (s.elem a) = true →
      ∃ t, exec (.inv d a) s = .next t ∧ t.ended .ok ∧
        t.elem d = (if s.elem a = zeroV then zeroV
          else ((List.range 292).foldl (fun p _ => (sqr p.1, mul table p.2 (sqr p.1))) (s.elem a, oneV)).2) ∧
        s.onlyProduct t d (s.elem a != zeroV)) ∧
    (s.fatal = false → isCanonical (s.elem a) = false → failsWith (.inv d a) s .nonCanonical) ∧
    (s.fatal = true → failsWith (.inv d a) s .tableFatal)

/-- R225 with R226: 293 characters, position 292 first, and the terminator; RESULT = 293. -/
def Obligations.TobinCommand : Prop :=
  ∀ (a : Reg) (cap : Cap) (s : State), Memory.wf s.txt →
    (cap.toNat ≤ 512 → (encode (.tobin a cap)).toNat = 0x20000000 + 0x10000 * a.val + cap.toNat) ∧
    (s.fatal = false → isCanonical (s.elem a) = true → 294 ≤ cap.toNat → cap.toNat ≤ 512 →
      ∃ t, exec (.tobin a cap) s = .next t ∧ t.ended .ok ∧
        (∀ k < 293, memRead t.txt k = if (s.elem a).getLsbD (292 - k) then 0x31 else 0x30) ∧
        memRead t.txt 293 = 0x00 ∧ t.result = 293 ∧ s.onlyText t 294) ∧
    (s.fatal = false → isCanonical (s.elem a) = true → cap.toNat < 294 → failsWith (.tobin a cap) s .bufferTooSmall) ∧
    (s.fatal = false → isCanonical (s.elem a) = false → cap.toNat ≤ 512 → failsWith (.tobin a cap) s .nonCanonical) ∧
    (s.fatal = false → 512 < cap.toNat → failsWith (.tobin a cap) s .illegalCommand) ∧
    (s.fatal = true → failsWith (.tobin a cap) s .tableFatal)

/-- R230: 293 characters '0' or '1' and a terminator at index 293, or InvalidFormat. -/
def Obligations.FrombinCommand : Prop :=
  ∀ (d : Reg) (s : State),
    (encode (.frombin d)).toNat = 0x21000000 + 0x100000 * d.val ∧
    (s.fatal = false → (∀ k < 293, memRead s.txt k = 0x30 ∨ memRead s.txt k = 0x31) → memRead s.txt 293 = 0x00 →
      ∃ t, exec (.frombin d) s = .next t ∧ t.ended .ok ∧
        (∀ k < 293, (t.elem d).getLsbD (292 - k) = decide (memRead s.txt k = 0x31)) ∧
        (∀ i, 293 ≤ i → (t.elem d).getLsbD i = false) ∧ s.onlyElem t d) ∧
    (s.fatal = false → ((∃ k < 293, memRead s.txt k ≠ 0x30 ∧ memRead s.txt k ≠ 0x31) ∨ memRead s.txt 293 ≠ 0x00) →
      failsWith (.frombin d) s .invalidFormat) ∧
    (s.fatal = true → failsWith (.frombin d) s .tableFatal)

/-- R235 with R236, in lower case (notes/assumptions/6.md): nibbles h down to 0 where h is the highest non-zero nibble, or 0; the terminator; RESULT = h + 1. -/
def Obligations.TohexCommand : Prop :=
  ∀ (a : Reg) (cap : Cap) (s : State), Memory.wf s.txt →
    (cap.toNat ≤ 512 → (encode (.tohex a cap)).toNat = 0x22000000 + 0x10000 * a.val + cap.toNat) ∧
    (s.fatal = false → isCanonical (s.elem a) = true → 75 ≤ cap.toNat → cap.toNat ≤ 512 →
      ∃ t h, exec (.tohex a cap) s = .next t ∧ t.ended .ok ∧ h < 74 ∧
        (h = 0 ∨ (s.elem a).toNat / 16 ^ h % 16 ≠ 0) ∧ (s.elem a).toNat / 16 ^ (h + 1) = 0 ∧
        (∀ k ≤ h, (memRead t.txt k).toNat =
          if (s.elem a).toNat / 16 ^ (h - k) % 16 ≤ 9 then 0x30 + (s.elem a).toNat / 16 ^ (h - k) % 16
          else 0x61 + ((s.elem a).toNat / 16 ^ (h - k) % 16 - 10)) ∧
        memRead t.txt (h + 1) = 0x00 ∧ t.result.toNat = h + 1 ∧ s.onlyText t (h + 2)) ∧
    (s.fatal = false → isCanonical (s.elem a) = true → cap.toNat < 75 → failsWith (.tohex a cap) s .bufferTooSmall) ∧
    (s.fatal = false → isCanonical (s.elem a) = false → cap.toNat ≤ 512 → failsWith (.tohex a cap) s .nonCanonical) ∧
    (s.fatal = false → 512 < cap.toNat → failsWith (.tohex a cap) s .illegalCommand) ∧
    (s.fatal = true → failsWith (.tohex a cap) s .tableFatal)

/-- R240 with R241 and R242: the length first, then the digits, then the value modulo 2^293. -/
def Obligations.FromhexCommand : Prop :=
  ∀ (d : Reg) (s : State),
    (encode (.fromhex d)).toNat = 0x23000000 + 0x100000 * d.val ∧
    (s.fatal = false → ∀ (n : Nat) (v : Nat → Nat), 1 ≤ n → n ≤ 74 → memRead s.txt n = 0x00 →
      (∀ k < n, hexVal (memRead s.txt k) = some (v k)) →
      ∃ t, exec (.fromhex d) s = .next t ∧ t.ended .ok ∧
        (t.elem d).toNat = (∑ k ∈ Finset.range n, v k * 16 ^ (n - 1 - k)) % 2 ^ 293 ∧ s.onlyElem t d) ∧
    (s.fatal = false → (∀ k < 75, memRead s.txt k ≠ 0x00) → failsWith (.fromhex d) s .overflow) ∧
    (s.fatal = false → memRead s.txt 0 = 0x00 → failsWith (.fromhex d) s .invalidFormat) ∧
    (s.fatal = false → ∀ n, n ≤ 74 → memRead s.txt n = 0x00 → (∀ k < n, memRead s.txt k ≠ 0x00) →
      (∃ k < n, hexVal (memRead s.txt k) = none) → failsWith (.fromhex d) s .invalidDigit) ∧
    (s.fatal = true → failsWith (.fromhex d) s .tableFatal)

-- Laws of the commands and of the field functions

/-- R245: TOBIN then FROMBIN gives the element back, and what FROMBIN accepts TOBIN writes again byte for byte. -/
def Obligations.BinaryRoundTrip : Prop :=
  (∀ (s t : State) (a d : Reg) (cap : Cap), Memory.wf s.txt → s.fatal = false → isCanonical (s.elem a) = true →
    294 ≤ cap.toNat → cap.toNat ≤ 512 → exec (.tobin a cap) s = .next t →
    ∃ u, exec (.frombin d) t = .next u ∧ u.err = .ok ∧ u.elem d = s.elem a) ∧
  (∀ (s t : State) (d : Reg) (cap : Cap), Memory.wf s.txt → s.fatal = false →
    294 ≤ cap.toNat → cap.toNat ≤ 512 → exec (.frombin d) s = .next t → t.err = .ok →
    ∃ u, exec (.tobin d cap) t = .next u ∧ u.err = .ok ∧ s.sameText u)

/-- R245: TOHEX then FROMHEX gives the element back, and so does the decoder on the string in either letter case. -/
def Obligations.HexRoundTrip : Prop :=
  (∀ (s t : State) (a d : Reg) (cap : Cap), Memory.wf s.txt → s.fatal = false → isCanonical (s.elem a) = true →
    75 ≤ cap.toNat → cap.toNat ≤ 512 → exec (.tohex a cap) s = .next t →
    ∃ u, exec (.fromhex d) t = .next u ∧ u.err = .ok ∧ u.elem d = s.elem a) ∧
  (∀ (upper : Bool) (x : Elem) (m : Txt), Memory.wf m → isCanonical x = true →
    parseHex (memWriteBytes m 0 (hexString upper x ++ [0x00])) = .ok x)

/-- R150: `sqr` as an integer function of a canonical element, and as a rotation of its positions. -/
def Obligations.SqrIsRotation : Prop :=
  ∀ x : Elem, isCanonical x = true →
    (sqr x).toNat = (x.toNat * 2 % 2 ^ 293) ||| (x.toNat / 2 ^ 292) ∧
    (sqr x).getLsbD 0 = x.getLsbD 292 ∧ (∀ i, 1 ≤ i → i ≤ 292 → (sqr x).getLsbD i = x.getLsbD (i - 1)) ∧
    ∀ i, 293 ≤ i → (sqr x).getLsbD i = false

/-- R154: 293 squarings are the identity; `sqr` is one-to-one and onto on canonical elements, linear, keeps the number of one bits and so the trace; k squarings move position i to i + k. -/
def Obligations.SqrLaws : Prop :=
  (∀ x : Elem, isCanonical x = true → sqr^[293] x = x) ∧
  (∀ x y : Elem, isCanonical x = true → isCanonical y = true → sqr x = sqr y → x = y) ∧
  (∀ y : Elem, isCanonical y = true → ∃ x, isCanonical x = true ∧ sqr x = y) ∧
  (∀ a b : Elem, isCanonical a = true → isCanonical b = true → sqr (add a b) = add (sqr a) (sqr b)) ∧
  (∀ x : Elem, isCanonical x = true → popcount (sqr x) = popcount x ∧ trace (sqr x) = trace x) ∧
  (∀ (x : Elem) (i k : Nat), isCanonical x = true → i < 293 → (sqr^[k] x).getLsbD ((i + k) % 293) = x.getLsbD i)

/-- R136. -/
def Obligations.AdditionLaws : Prop :=
  ∀ a b c : Elem, isCanonical a = true → isCanonical b = true → isCanonical c = true →
    add a zeroV = a ∧ add a a = zeroV ∧ add a b = add b a ∧ add (add a b) c = add a (add b c) ∧
    add (add a b) b = a

/-- R186: `mul` is commutative. -/
def Obligations.MulCommutative : Prop :=
  ∀ a b : Elem, isCanonical a = true → isCanonical b = true → mul table a b = mul table b a

/-- R186: `mul` distributes over `add`. -/
def Obligations.MulDistributes : Prop :=
  ∀ a b c : Elem, isCanonical a = true → isCanonical b = true → isCanonical c = true →
    mul table a (add b c) = add (mul table a b) (mul table a c)

/-- R186: `mul` is associative. -/
def Obligations.MulAssociative : Prop :=
  ∀ a b c : Elem, isCanonical a = true → isCanonical b = true → isCanonical c = true →
    mul table (mul table a b) c = mul table a (mul table b c)

/-- R184: `mul(a, a) = sqr(a)`. -/
def Obligations.MulOfEqualIsSqr : Prop := ∀ a : Elem, isCanonical a = true → mul table a a = sqr a

/-- R185: `mul(a, ONE_V) = a` and `mul(ONE_V, a) = a`. -/
def Obligations.MulByOne : Prop :=
  ∀ a : Elem, isCanonical a = true → mul table a oneV = a ∧ mul table oneV a = a

/-- R189. -/
def Obligations.MulByZero : Prop :=
  ∀ a : Elem, isCanonical a = true → mul table a zeroV = zeroV ∧ mul table zeroV a = zeroV

/-- R192's corner cases (a) to (f): exponents 0, 1, 2 and 2^k; base zero; base one. -/
def Obligations.PowCornerCases : Prop :=
  (∀ g : Elem, isCanonical g = true → power table g zeroV = oneV) ∧
  (∀ g : Elem, isCanonical g = true → power table g (setBit zeroV 0) = g) ∧
  (∀ g : Elem, isCanonical g = true → power table g (setBit zeroV 1) = sqr g) ∧
  (∀ (g : Elem) (k : Pos), isCanonical g = true → power table g (setBit zeroV k) = sqr^[k.val] g) ∧
  (∀ e : Elem, isCanonical e = true → 1 ≤ exponentValue e → power table zeroV e = zeroV) ∧
  (∀ e : Elem, isCanonical e = true → power table oneV e = oneV)

/-- R195: a non-zero element to the power 2^293 − 1 is one. -/
def Obligations.PowFieldOrder : Prop :=
  ∀ a : Elem, isCanonical a = true →
    (a ≠ zeroV → power table a oneV = oneV) ∧ (a = zeroV → power table a oneV = zeroV) ∧
    exponentValue oneV = 2 ^ 293 - 1

/-- R205: `mul(a, invert(a)) = 1` for a non-zero element, and `invert(0) = 0`. -/
def Obligations.InverseLaw : Prop :=
  ∀ a : Elem, isCanonical a = true →
    (a ≠ zeroV → mul table a (invert table a) = oneV) ∧ invert table zeroV = zeroV

/-- R213. -/
def Obligations.TraceLaws : Prop :=
  trace oneV = true ∧
  (∀ a b : Elem, isCanonical a = true → isCanonical b = true → trace (add a b) = (trace a ^^ trace b)) ∧
  (∀ a : Elem, isCanonical a = true → trace (sqr a) = trace a)

/-- R165 with the test of R162 on the powers of two themselves, and R166's count. -/
def Obligations.TableIsHitSet : Prop :=
  (∀ i j : Pos, (i, j) ∈ table ↔
    ∃ s1 ∈ [(1 : Int), -1], ∃ s2 ∈ [(1 : Int), -1], (s1 * 2 ^ i.val + s2 * 2 ^ j.val) % 587 = 1) ∧
  table.Nodup ∧ table.length = 585

/-- R171: T is symmetric; its only diagonal member is (292, 292); row 0 is {1} and every other row has two members; every index occurs. -/
def Obligations.TableStructure : Prop :=
  (∀ i j : Pos, (i, j) ∈ table ↔ (j, i) ∈ table) ∧
  (∀ i : Pos, (i, i) ∈ table ↔ i = 292) ∧
  (∀ j : Pos, (0, j) ∈ table ↔ j = 1) ∧
  (∀ i : Pos, i ≠ 0 → (table.countP fun p => p.1 = i) = 2 ∧ (table.countP fun p => p.2 = i) = 2) ∧
  (∀ i : Pos, ∃ j, (i, j) ∈ table)

/-- R112 and R113: `canonicalize` by words, its laws, and the three forms of `is_canonical`. -/
def Obligations.CanonicalForm : Prop :=
  (∀ (x : Elem) (k : WordIdx), elemWord (canonicalize x) k =
    if k = 9 then elemWord x 9 &&& 0x0000001F else elemWord x k) ∧
  (∀ x : Elem, canonicalize (canonicalize x) = canonicalize x ∧ isCanonical (canonicalize x) = true) ∧
  (∀ x : Elem, isCanonical x = true → canonicalize x = x) ∧
  (∀ a b : Elem, canonicalize (a ^^^ b) = canonicalize a ^^^ canonicalize b) ∧
  (∀ x : Elem, (isCanonical x = true ↔ elemWord x 9 &&& 0xFFFFFFE0 = 0) ∧ (isCanonical x = true ↔ x.toNat < 2 ^ 293))

/-- R110 and R111: `get_bit` and `set_bit` by words. -/
def Obligations.GetAndSetBit : Prop :=
  (∀ (x : Elem) (i : Pos) (k : WordIdx), k.val = i.val / 32 →
    getBit x i = ((elemWord x k >>> (i.val % 32)) &&& 1#32 == 1#32)) ∧
  (∀ (x : Elem) (i : Pos) (k : WordIdx), elemWord (setBit x i) k =
    if k.val = i.val / 32 then elemWord x k ||| (1#32 <<< (i.val % 32)) else elemWord x k) ∧
  (∀ (x : Elem) (i : Pos), getBit x i = true → setBit x i = x) ∧
  (∀ (x : Elem) (i : Pos), isCanonical x = true → isCanonical (setBit x i) = true)

-- The core's turn, and the digits of the hexadecimal text

/-- R31: in a block with BUSY = 1 whose stream holds no reset, the core's turn comes with the same command still pending, after no more steps than the stream has events; BUSY is 1 until then and the step that follows ends it. The bound is that of the model's stream (notes/assumptions/4.md, DESIGN CHOICE). -/
def Obligations.CoreTurnComes : Prop :=
  ∀ s : State, s.busy = true → (∀ d, HostEvent.reset d ∉ s.hostIn) →
    ∃ k ≤ s.hostIn.length, ∃ u v t, s.runsTo k u ∧ u.busy = true ∧ u.pend = s.pend ∧ u.err = s.err ∧
      u.atCoreTurn v ∧ step u = .next t ∧ runPending v = .next t ∧ t.busy = false

/-- R223: which bytes are digits and their values, in either letter case; the digits' characters in lower and in upper case. -/
def Obligations.HexDigits : Prop :=
  (∀ b : Byte,
    (0x30 ≤ b.toNat → b.toNat ≤ 0x39 → hexVal b = some (b.toNat - 0x30)) ∧
    (0x41 ≤ b.toNat → b.toNat ≤ 0x46 → hexVal b = some (b.toNat - 0x41 + 10)) ∧
    (0x61 ≤ b.toNat → b.toNat ≤ 0x66 → hexVal b = some (b.toNat - 0x61 + 10)) ∧
    (b.toNat < 0x30 ∨ (0x39 < b.toNat ∧ b.toNat < 0x41) ∨ (0x46 < b.toNat ∧ b.toNat < 0x61) ∨ 0x66 < b.toNat →
      hexVal b = none)) ∧
  (∀ v : Nibble,
    (v.toNat ≤ 9 → ∀ upper, (hexChar upper v).toNat = 0x30 + v.toNat) ∧
    (10 ≤ v.toNat → (hexChar false v).toNat = 0x61 + (v.toNat - 10) ∧ (hexChar true v).toNat = 0x41 + (v.toNat - 10)))
end

