-- ==== Sys2Proof/Laws/Decode.lean ====
section
/-! SUPPORT. The fields of a packed command word, so that a decoder proof need not unfold the packing (R81, R90). -/

namespace Sys2Proof

theorem getLsbD_ofNat_small {d : Nat} (hd : d < 8) (n : Nat) (hn : 4 ≤ n) : (BitVec.ofNat 32 d).getLsbD n = false := by
  rw [BitVec.getLsbD_ofNat, Nat.testBit_lt_two_pow]
  · simp
  · calc d < 2 ^ 4 := by omega
      _ ≤ 2 ^ n := Nat.pow_le_pow_right (by decide) hn

theorem getLsbD_ofNat_four (d n : Nat) (hn : n < 4) : (BitVec.ofNat 32 d).getLsbD n = (BitVec.ofNat 4 d)[n] := by
  rw [← BitVec.getLsbD_eq_getElem, BitVec.getLsbD_ofNat, BitVec.getLsbD_ofNat]
  simp [hn, show n < 32 by omega]

/-- The packed word bit by bit. -/
theorem getLsbD_packWord (opc : BitVec 8) (d s t : Nat) (cap : Cap) (n : Nat) (hn : n < 32) :
    (packWord opc d s t cap).getLsbD n =
      ((decide (24 ≤ n) && opc.getLsbD (n - 24)) || (decide (20 ≤ n) && (BitVec.ofNat 32 d).getLsbD (n - 20)) ||
        (decide (16 ≤ n) && (BitVec.ofNat 32 s).getLsbD (n - 16)) ||
        (decide (12 ≤ n) && (BitVec.ofNat 32 t).getLsbD (n - 12)) || cap.getLsbD n) := by
  have hs : ∀ k : Nat, (!decide (n < k)) = decide (k ≤ n) := fun k => by
    by_cases h : n < k
    · simp [h]
    · simp [h, Nat.le_of_not_lt h]
  simp only [packWord, BitVec.getLsbD_or, BitVec.getLsbD_shiftLeft, BitVec.getLsbD_setWidth, hn, decide_true,
    Bool.true_and, hs, show n - 24 < 32 by omega]

theorem opcField_packWord (opc : BitVec 8) {d s t : Nat} (cap : Cap) (hd : d < 8) (hs : s < 8) (ht : t < 8) :
    opcField (packWord opc d s t cap) = opc := by
  apply BitVec.eq_of_getLsbD_eq
  intro n hn
  rw [opcField, BitVec.getLsbD_extractLsb', getLsbD_packWord _ _ _ _ _ _ (by omega)]
  simp [hn, getLsbD_ofNat_small hd (24 + n - 20) (by omega), getLsbD_ofNat_small hs (24 + n - 16) (by omega),
    getLsbD_ofNat_small ht (24 + n - 12) (by omega), BitVec.getLsbD_of_ge cap (24 + n) (by omega)]

theorem capField_packWord (opc : BitVec 8) (d s t : Nat) (cap : Cap) : capField (packWord opc d s t cap) = cap := by
  apply BitVec.eq_of_getLsbD_eq
  intro n hn
  rw [capField, BitVec.getLsbD_extractLsb', getLsbD_packWord _ _ _ _ _ _ (by omega)]
  simp [hn, show ¬ 24 ≤ n by omega, show ¬ 20 ≤ n by omega, show ¬ 16 ≤ n by omega, show ¬ 12 ≤ n by omega]

theorem immHighField_packWord (opc : BitVec 8) (d s t : Nat) (cap : Cap) : immHighField (packWord opc d s t cap) = 0 := by
  apply BitVec.eq_of_getLsbD_eq
  intro n hn
  rw [immHighField, BitVec.getLsbD_extractLsb', getLsbD_packWord _ _ _ _ _ _ (by omega)]
  simp [hn, show ¬ 24 ≤ 10 + n by omega, show ¬ 20 ≤ 10 + n by omega, show ¬ 16 ≤ 10 + n by omega,
    show ¬ 12 ≤ 10 + n by omega]

theorem immField_packWord (opc : BitVec 8) (d s t : Nat) (cap : Cap) :
    immField (packWord opc d s t cap) = cap.setWidth 12 := by
  apply BitVec.eq_of_getLsbD_eq
  intro n hn
  rw [immField, BitVec.getLsbD_extractLsb', getLsbD_packWord _ _ _ _ _ _ (by omega)]
  simp [hn, show ¬ 24 ≤ n by omega, show ¬ 20 ≤ n by omega, show ¬ 16 ≤ n by omega, show ¬ 12 ≤ n by omega]

theorem rdField_packWord (opc : BitVec 8) {d s t : Nat} (cap : Cap) (hs : s < 8) (ht : t < 8) :
    rdField (packWord opc d s t cap) = BitVec.ofNat 4 d := by
  apply BitVec.eq_of_getLsbD_eq
  intro n hn
  rw [rdField, BitVec.getLsbD_extractLsb', getLsbD_packWord _ _ _ _ _ _ (by omega)]
  simp [hn, getLsbD_ofNat_small hs (20 + n - 16) (by omega), getLsbD_ofNat_small ht (20 + n - 12) (by omega),
    BitVec.getLsbD_of_ge cap (20 + n) (by omega), show ¬ 24 ≤ 20 + n by omega, getLsbD_ofNat_four d n hn]

theorem rs1Field_packWord (opc : BitVec 8) {d s t : Nat} (cap : Cap) (ht : t < 8) :
    rs1Field (packWord opc d s t cap) = BitVec.ofNat 4 s := by
  apply BitVec.eq_of_getLsbD_eq
  intro n hn
  rw [rs1Field, BitVec.getLsbD_extractLsb', getLsbD_packWord _ _ _ _ _ _ (by omega)]
  simp [hn, getLsbD_ofNat_small ht (16 + n - 12) (by omega), BitVec.getLsbD_of_ge cap (16 + n) (by omega),
    show ¬ 24 ≤ 16 + n by omega, show ¬ 20 ≤ 16 + n by omega, getLsbD_ofNat_four s n hn]

theorem rs2Field_packWord (opc : BitVec 8) (d s t : Nat) (cap : Cap) :
    rs2Field (packWord opc d s t cap) = BitVec.ofNat 4 t := by
  apply BitVec.eq_of_getLsbD_eq
  intro n hn
  rw [rs2Field, BitVec.getLsbD_extractLsb', getLsbD_packWord _ _ _ _ _ _ (by omega)]
  simp [hn, BitVec.getLsbD_of_ge cap (12 + n) (by omega), show ¬ 24 ≤ 12 + n by omega, show ¬ 20 ≤ 12 + n by omega,
    show ¬ 16 ≤ 12 + n by omega, getLsbD_ofNat_four t n hn]

/-- A register number packed into a field is read back as that register (R86). -/
theorem readReg_ofNat (r : Reg) : readReg (BitVec.ofNat 4 r.val) = .ok r := by
  have hr := r.isLt
  have h : (BitVec.ofNat 4 r.val).toNat = r.val := by simp [BitVec.toNat_ofNat]; omega
  simp [readReg, h]

/-- A legal capacity is read back as legal (R87). -/
theorem capLegal_iff (cap : Cap) : capLegal cap = true ↔ cap.toNat ≤ 512 := by simp [capLegal]

end Sys2Proof
end

