-- ==== Sys2Proof/Laws/Operands.lean ====
section
/-! SUPPORT. The bit-vector core bit by bit: what each function of 40_bitvector_core.md does to each position. -/

namespace Sys2Proof.Machine

/-- An element is its positions: canonical values that agree on the valid ones are equal. -/
theorem getLsbD_canonicalize (x : Elem) (i : Nat) : (canonicalize x).getLsbD i = (decide (i < 293) && x.getLsbD i) := by
  by_cases h : i < 293
  · simp [canonicalize, h, show i < 320 by omega]
  · simp [canonicalize, h]

theorem toNat_canonicalize (x : Elem) : (canonicalize x).toNat = x.toNat % 2 ^ 293 := by
  simp only [canonicalize, BitVec.toNat_setWidth]
  omega

@[simp] theorem canonicalize_canonicalize (x : Elem) : canonicalize (canonicalize x) = canonicalize x := by
  apply BitVec.eq_of_getLsbD_eq
  intro i _
  simp [getLsbD_canonicalize]

theorem isCanonical_iff (x : Elem) : isCanonical x = true ↔ canonicalize x = x := by simp [isCanonical]

@[simp] theorem isCanonical_canonicalize (x : Elem) : isCanonical (canonicalize x) = true := by simp [isCanonical]

/-- Canonical is: no position at or above 293 is set (R113). -/
theorem isCanonical_iff_excess (x : Elem) : isCanonical x = true ↔ ∀ i, 293 ≤ i → x.getLsbD i = false := by
  rw [isCanonical_iff]
  constructor
  · intro h i hi
    rw [← h, getLsbD_canonicalize]
    simp [show ¬ i < 293 by omega]
  · intro h
    apply BitVec.eq_of_getLsbD_eq
    intro i _
    rw [getLsbD_canonicalize]
    by_cases hi : i < 293
    · simp [hi]
    · simp [hi, h i (by omega)]

/-- Canonical is: below 2^293 as an integer (R113). -/
theorem isCanonical_iff_toNat (x : Elem) : isCanonical x = true ↔ x.toNat < 2 ^ 293 := by
  rw [isCanonical_iff, ← BitVec.toNat_inj, toNat_canonicalize]
  omega

/-- Two canonical elements that agree at every valid position are equal. -/
theorem eq_of_getBit_eq {x y : Elem} (hx : isCanonical x = true) (hy : isCanonical y = true)
    (h : ∀ i : Pos, getBit x i = getBit y i) : x = y := by
  apply BitVec.eq_of_getLsbD_eq
  intro i _
  by_cases hi : i < 293
  · exact h ⟨i, hi⟩
  · rw [(isCanonical_iff_excess x).mp hx i (by omega), (isCanonical_iff_excess y).mp hy i (by omega)]

@[simp] theorem isCanonical_zeroV : isCanonical zeroV = true := by decide +kernel

@[simp] theorem isCanonical_oneV : isCanonical oneV = true := isCanonical_canonicalize _

@[simp] theorem getBit_zeroV (i : Pos) : getBit zeroV i = false := by simp [getBit, zeroV]

@[simp] theorem getBit_oneV (i : Pos) : getBit oneV i = true := by
  have := i.isLt
  rw [getBit, oneV, getLsbD_canonicalize, BitVec.getLsbD_allOnes]
  simp
  omega

theorem getBit_canonicalize (x : Elem) (i : Pos) : getBit (canonicalize x) i = getBit x i := by
  simp [getBit, getLsbD_canonicalize]

theorem getLsbD_setBit (x : Elem) (i : Pos) (n : Nat) : (setBit x i).getLsbD n = (x.getLsbD n || decide (n = i.val)) := by
  have := i.isLt
  by_cases h : n = i.val
  · subst h
    simp [setBit, show i.val < 320 by omega]
  · simp only [setBit, BitVec.getLsbD_or, BitVec.getLsbD_shiftLeft, h, decide_false, Bool.or_false]
    by_cases hn : n < i.val
    · simp [hn]
    · rw [BitVec.getLsbD_one]
      simp [show n - i.val ≠ 0 by omega]

theorem getBit_setBit (x : Elem) (i j : Pos) : getBit (setBit x i) j = (getBit x j || decide (j = i)) := by
  simp [getBit, getLsbD_setBit, Fin.ext_iff]

/-- `set_bit` maps canonical vectors to canonical vectors (R111). -/
theorem isCanonical_setBit {x : Elem} (i : Pos) (hx : isCanonical x = true) : isCanonical (setBit x i) = true := by
  rw [isCanonical_iff_excess] at hx ⊢
  intro n hn
  have := i.isLt
  rw [getLsbD_setBit, hx n hn]
  simp
  omega

/-- Bit n of word k is position 32k + n (R12). -/
theorem getLsbD_elemWord (x : Elem) (k : WordIdx) (n : Nat) :
    (elemWord x k).getLsbD n = (decide (n < 32) && x.getLsbD (32 * k.val + n)) := by
  simp [elemWord, BitVec.getLsbD_extractLsb']

/-- An element is its ten words (R12). -/
theorem eq_of_elemWord_eq {x y : Elem} (h : ∀ k, elemWord x k = elemWord y k) : x = y := by
  apply BitVec.eq_of_getLsbD_eq
  intro i hi
  have := congrArg (fun w => w.getLsbD (i % 32)) (h ⟨i / 32, by omega⟩)
  simp only [getLsbD_elemWord, Nat.mod_lt i (show 32 > 0 by decide), decide_true, Bool.true_and, Nat.div_add_mod] at this
  exact this

/-- Writing word k: its bits are d's, every other position as before (R56). -/
theorem getLsbD_setElemWord (x : Elem) (k : WordIdx) (d : Word) (n : Nat) (hn : n < 320) :
    (setElemWord x k d).getLsbD n = if n / 32 = k.val then d.getLsbD (n % 32) else x.getLsbD n := by
  have hk := k.isLt
  simp only [setElemWord, BitVec.getLsbD_or, BitVec.getLsbD_and, BitVec.getLsbD_not, BitVec.getLsbD_shiftLeft,
    BitVec.getLsbD_setWidth, BitVec.getLsbD_allOnes, hn, decide_true, Bool.true_and]
  by_cases h : n / 32 = k.val
  · have h1 : ¬ n < 32 * k.val := by omega
    have h2 : n - 32 * k.val = n % 32 := by omega
    simp [h, h1, h2, show n % 32 < 320 by omega, Nat.mod_lt]
  · rw [if_neg h]
    by_cases h1 : n < 32 * k.val
    · simp [h1]
    · have h2 : ¬ n - 32 * k.val < 32 := by omega
      simp [h1, h2, BitVec.getLsbD_of_ge d (n - 32 * k.val) (by omega)]

theorem elemWord_setElemWord (x : Elem) (k q : WordIdx) (d : Word) :
    elemWord (setElemWord x k d) q = if q = k then d else elemWord x q := by
  apply BitVec.eq_of_getLsbD_eq
  intro n hn
  have hq := q.isLt
  rw [getLsbD_elemWord, getLsbD_setElemWord _ _ _ _ (by omega), show (32 * q.val + n) / 32 = q.val by omega,
    show (32 * q.val + n) % 32 = n by omega]
  by_cases h : q = k
  · simp [h, hn]
  · rw [if_neg (fun hv => h (Fin.ext hv)), if_neg h, getLsbD_elemWord]

end Sys2Proof.Machine
end

