-- ==== Sys2Proof/Laws/Field.lean ====
section
/-! SUPPORT. The field functions position by position, and that each gives a canonical element. -/

namespace Sys2Proof.Machine

theorem getBit_add (a b : Elem) (i : Pos) : getBit (add a b) i = (getBit a i ^^ getBit b i) := by simp [getBit, add]

/-- Exclusive-or of canonical elements is canonical (R134). -/
theorem isCanonical_add {a b : Elem} (ha : isCanonical a = true) (hb : isCanonical b = true) :
    isCanonical (add a b) = true := by
  rw [isCanonical_iff_excess] at *
  intro i hi
  simp [add, ha i hi, hb i hi]

theorem isCanonical_sqr (x : Elem) : isCanonical (sqr x) = true := by
  simp only [sqr]
  split
  · exact isCanonical_setBit _ (isCanonical_canonicalize _)
  · exact isCanonical_canonicalize _

/-- `sqr` moves every valid position up by one, position 292 to position 0 (R150). -/
theorem getBit_sqr (x : Elem) (i : Pos) : getBit (sqr x) i = getBit x (i - 1) := by
  have hi := i.isLt
  have hshift : getBit (canonicalize (x <<< 1)) i = (decide (i.val ≠ 0) && x.getLsbD (i.val - 1)) := by
    rw [getBit_canonicalize, getBit, BitVec.getLsbD_shiftLeft]
    by_cases h : i.val = 0
    · simp [h]
    · simp [h, show i.val < 320 by omega]
  have key : getBit (sqr x) i = (getBit (canonicalize (x <<< 1)) i || (getBit x 292 && decide (i = 0))) := by
    simp only [sqr]
    split
    · simp [getBit_setBit, *]
    · simp [*]
  rw [key, hshift]
  by_cases h : i = 0
  · subst h
    simp [getBit]
  · have hv : i.val ≠ 0 := fun hc => h (Fin.ext hc)
    have h1 : ((i - 1 : Pos) : Nat) = i.val - 1 := by
      rw [Fin.sub_def]
      show (293 - 1 + i.val) % 293 = _
      omega
    simp [h, hv, getBit, h1]

/-- Reading the doubled vector: no wrap is left to do (R180). -/
theorem getLsbD_twice (x : Elem) (i a : Pos) : (twice x).getLsbD (i.val + a.val) = getBit x (i + a) := by
  have hi := i.isLt
  have ha := a.isLt
  have hval : ((i + a : Pos) : Nat) = (i.val + a.val) % 293 := Fin.val_add i a
  simp only [twice, BitVec.getLsbD_or, BitVec.getLsbD_shiftLeft, BitVec.getLsbD_setWidth, getLsbD_canonicalize, getBit, hval]
  by_cases h : i.val + a.val < 293
  · simp [h, Nat.mod_eq_of_lt h, show i.val + a.val < 640 by omega]
  · have hm : (i.val + a.val) % 293 = i.val + a.val - 293 := by omega
    have h640 : i.val + a.val < 640 := by omega
    have hs : i.val + a.val - 293 < 640 := by omega
    have hs2 : i.val + a.val - 293 < 293 := by omega
    simp [h, hm, h640, hs, hs2]

/-- The exclusive-or over a list of pairs, at one position. -/
def xorPairs (f : Pair → Bool) : List Pair → Bool
  | [] => false
  | p :: t => f p ^^ xorPairs f t

theorem getLsbD_mulPairs (u v : BitVec 640) (t : List Pair) (n : Nat) :
    (mulPairs u v t).getLsbD n = xorPairs (fun p => u.getLsbD (p.1.val + n) && v.getLsbD (p.2.val + n)) t := by
  induction t with
  | nil => simp [mulPairs, xorPairs]
  | cons p t ih =>
    obtain ⟨a, b⟩ := p
    simp [mulPairs, xorPairs, ih]

/-- The product at one position: the exclusive-or over the pairs (a, b) of u at i + a and v at i + b (R180). -/
theorem getBit_mul (tbl : List Pair) (u v : Elem) (i : Pos) :
    getBit (mul tbl u v) i = xorPairs (fun p => getBit u (i + p.1) && getBit v (i + p.2)) tbl := by
  have hi := i.isLt
  rw [mul, getBit_canonicalize, getBit, BitVec.getLsbD_setWidth, getLsbD_mulPairs]
  simp only [show i.val < 320 by omega, decide_true, Bool.true_and]
  have hp : (fun p : Pair => (twice u).getLsbD (p.1.val + i.val) && (twice v).getLsbD (p.2.val + i.val)) =
      fun p => getBit u (i + p.1) && getBit v (i + p.2) := by
    funext p
    rw [Nat.add_comm p.1.val, Nat.add_comm p.2.val, getLsbD_twice, getLsbD_twice]
  rw [hp]

theorem isCanonical_mul (tbl : List Pair) (u v : Elem) : isCanonical (mul tbl u v) = true := isCanonical_canonicalize _

theorem isCanonical_powerLoop (tbl : List Pair) (g e : Elem) (n : Nat) {r : Elem} (hr : isCanonical r = true) :
    isCanonical (powerLoop tbl g e n r) = true := by
  induction n generalizing r with
  | zero => exact hr
  | succ n ih =>
    rw [powerLoop]
    apply ih
    split
    · exact isCanonical_mul _ _ _
    · exact isCanonical_sqr _

theorem isCanonical_power (tbl : List Pair) (g e : Elem) : isCanonical (power tbl g e) = true :=
  isCanonical_powerLoop _ _ _ _ isCanonical_oneV

theorem isCanonical_invertLoop (tbl : List Pair) (n : Nat) (t : Elem) {r : Elem} (hr : isCanonical r = true) :
    isCanonical (invertLoop tbl n t r) = true := by
  induction n generalizing t r with
  | zero => exact hr
  | succ n ih =>
    rw [invertLoop]
    exact ih _ (isCanonical_mul _ _ _)

theorem isCanonical_invert (tbl : List Pair) (a : Elem) : isCanonical (invert tbl a) = true := by
  rw [invert]
  split
  · exact isCanonical_zeroV
  · exact isCanonical_invertLoop _ _ _ isCanonical_oneV

end Sys2Proof.Machine
end

