-- ==== Sys2Proof/Laws/Memory.lean ====
section
/-! SUPPORT. The laws of TXT: a read after a write, and that every operation keeps the canonical form. -/

namespace Sys2Proof.Machine

/-- Every index listed is above `k`. -/
def Memory.above (k : Nat) (m : Txt) : Prop := ∀ c ∈ m, k < c.1

theorem memRead_of_above {m : Txt} {k : Nat} (h : Memory.above k m) : memRead m k = unwrittenByte := by
  induction m with
  | nil => rfl
  | cons c m ih =>
    have hc : k < c.1 := h c (by simp)
    rw [memRead, if_neg (by omega)]
    exact ih fun d hd => h d (List.mem_cons_of_mem _ hd)

theorem Memory.wf_nil : Memory.wf [] := by simp [Memory.wf]

/-- The canonical form, one cell at a time. -/
theorem Memory.wf_cons {a : Nat} {b : Byte} {m : Txt} :
    Memory.wf ((a, b) :: m) ↔ (Memory.above a m ∧ a < 512 ∧ b ≠ unwrittenByte) ∧ Memory.wf m := by
  simp only [Memory.wf, Memory.above, List.pairwise_cons, List.forall_mem_cons]
  tauto

theorem mem_of_mem_memCons {k : Nat} {b : Byte} {m : Txt} {c : Host.Cell} (h : c ∈ memCons k b m) :
    c = (k, b) ∨ c ∈ m := by
  unfold memCons at h
  split at h
  · exact .inr h
  · exact List.mem_cons.mp h

theorem Memory.wf_memCons {k : Nat} {b : Byte} {m : Txt} (hk : k < 512) (habove : Memory.above k m)
    (hm : Memory.wf m) : Memory.wf (memCons k b m) := by
  unfold memCons
  split
  · exact hm
  · exact Memory.wf_cons.mpr ⟨⟨habove, hk, ‹_›⟩, hm⟩

theorem mem_of_mem_memWrite {m : Txt} {k : Nat} {b : Byte} {c : Host.Cell} (h : c ∈ memWrite m k b) :
    c = (k, b) ∨ c ∈ m := by
  induction m with
  | nil => exact mem_of_mem_memCons h
  | cons d m ih =>
    obtain ⟨a, e⟩ := d
    simp only [memWrite] at h
    split at h
    · exact mem_of_mem_memCons h
    · split at h
      · exact (mem_of_mem_memCons h).imp_right (List.mem_cons_of_mem _)
      · rcases List.mem_cons.mp h with h | h
        · exact .inr (h ▸ List.mem_cons_self)
        · exact (ih h).imp_right (List.mem_cons_of_mem _)

/-- A write keeps the canonical form. -/
theorem Memory.wf_memWrite {m : Txt} {k : Nat} {b : Byte} (hk : k < 512) (hm : Memory.wf m) :
    Memory.wf (memWrite m k b) := by
  induction m with
  | nil => exact Memory.wf_memCons hk (by simp [Memory.above]) Memory.wf_nil
  | cons d m ih =>
    obtain ⟨a, e⟩ := d
    obtain ⟨⟨habove, ha, he⟩, hm'⟩ := Memory.wf_cons.mp hm
    simp only [memWrite]
    split
    · refine Memory.wf_memCons hk (fun c hc => ?_) hm
      rcases List.mem_cons.mp hc with rfl | hc
      · assumption
      · exact lt_trans ‹_› (habove c hc)
    · split
      · exact Memory.wf_memCons hk (by simpa [‹k = a›] using habove) hm'
      · refine Memory.wf_cons.mpr ⟨⟨fun c hc => ?_, ha, he⟩, ih hm'⟩
        rcases mem_of_mem_memWrite hc with rfl | hc
        · show a < k
          omega
        · exact habove c hc

theorem memRead_memCons {k q : Nat} {b : Byte} {m : Txt} (habove : Memory.above k m) :
    memRead (memCons k b m) q = if k = q then b else memRead m q := by
  unfold memCons
  split
  · split
    · subst q
      rw [memRead_of_above habove, ‹b = unwrittenByte›]
    · rfl
  · rfl

/-- A read after a write: the byte written at its index, every other byte as before. -/
theorem memRead_memWrite {m : Txt} {k q : Nat} {b : Byte} (hm : Memory.wf m) :
    memRead (memWrite m k b) q = if k = q then b else memRead m q := by
  induction m with
  | nil => exact memRead_memCons (by simp [Memory.above])
  | cons d m ih =>
    obtain ⟨a, e⟩ := d
    obtain ⟨⟨habove, ha, he⟩, hm'⟩ := Memory.wf_cons.mp hm
    simp only [memWrite]
    split
    · refine memRead_memCons fun c hc => ?_
      rcases List.mem_cons.mp hc with rfl | hc
      · assumption
      · exact lt_trans ‹_› (habove c hc)
    · split
      · subst k
        rw [memRead_memCons habove]
        simp only [memRead]
        split <;> rfl
      · simp only [memRead, ih hm']
        split
        · subst q
          rw [if_neg ‹_›]
        · rfl

theorem Memory.wf_memWriteBytes {m : Txt} {k : Nat} {bs : List Byte} (hk : k + bs.length ≤ 512) (hm : Memory.wf m) :
    Memory.wf (memWriteBytes m k bs) := by
  induction bs generalizing k with
  | nil => exact hm
  | cons b bs ih =>
    simp only [List.length_cons] at hk
    exact Memory.wf_memWrite (by omega) (ih (by omega))

/-- A read after a run of bytes is written: the bytes of the run at their indices, every other byte as before. -/
theorem memRead_memWriteBytes {m : Txt} {k q : Nat} {bs : List Byte} (hk : k + bs.length ≤ 512) (hm : Memory.wf m) :
    memRead (memWriteBytes m k bs) q =
      if h : k ≤ q ∧ q < k + bs.length then bs[q - k]'(by omega) else memRead m q := by
  induction bs generalizing k with
  | nil =>
    rw [dif_neg (by simp)]
    rfl
  | cons b bs ih =>
    simp only [List.length_cons] at hk
    rw [memWriteBytes, memRead_memWrite (Memory.wf_memWriteBytes (by omega) hm), ih (by omega)]
    by_cases hkq : k = q
    · subst hkq
      simp
    · rw [if_neg hkq]
      by_cases hin : k + 1 ≤ q ∧ q < k + 1 + bs.length
      · rw [dif_pos hin, dif_pos (by simp only [List.length_cons]; omega)]
        simp only [List.getElem_cons, show q - k ≠ 0 by omega, dite_false, show q - (k + 1) = q - k - 1 by omega]
      · rw [dif_neg hin, dif_neg (by simp only [List.length_cons]; omega)]

/-- A listing of pairs gives a canonical buffer, whatever it lists. -/
theorem Memory.wf_memOfCells (cs : List Host.Cell) : Memory.wf (memOfCells cs) := by
  induction cs with
  | nil => exact Memory.wf_nil
  | cons c cs ih =>
    obtain ⟨k, b⟩ := c
    simp only [memOfCells]
    split
    · exact Memory.wf_memWrite ‹_› ih
    · exact ih

theorem memReadBytes_length (m : Txt) (k n : Nat) : (memReadBytes m k n).length = n := by simp [memReadBytes]

theorem memReadBytes_getElem (m : Txt) (k n i : Nat) (h : i < (memReadBytes m k n).length) :
    (memReadBytes m k n)[i] = memRead m (k + i) := by simp [memReadBytes]

theorem Memory.wf_setTxtWord {m : Txt} (j : Fin 128) (d : Word) (hm : Memory.wf m) : Memory.wf (setTxtWord m j d) :=
  Memory.wf_memWriteBytes (by simp; omega) hm

/-- R57's write: the four bytes of the word at 4j to 4j + 3, every other byte as before. -/
theorem memRead_setTxtWord {m : Txt} (j : Fin 128) (d : Word) (q : Nat) (hm : Memory.wf m) :
    memRead (setTxtWord m j d) q =
      if 4 * j.val ≤ q ∧ q < 4 * j.val + 4 then d.extractLsb' (8 * (q - 4 * j.val)) 8 else memRead m q := by
  unfold setTxtWord
  rw [memRead_memWriteBytes (by simp; omega) hm]
  simp only [List.length_cons, List.length_nil]
  split
  · obtain h | h | h | h : q - 4 * j.val = 0 ∨ q - 4 * j.val = 1 ∨ q - 4 * j.val = 2 ∨ q - 4 * j.val = 3 := by omega
    all_goals simp [h]
  · rfl

/-- R57's read: byte n of the word is the byte at index 4j + n. -/
theorem extractLsb'_txtWord (m : Txt) (j n : Nat) (hn : n < 4) :
    (txtWord m j).extractLsb' (8 * n) 8 = memRead m (4 * j + n) := by
  apply BitVec.eq_of_getLsbD_eq
  intro i hi
  simp only [txtWord, BitVec.getLsbD_extractLsb', hi, decide_true, Bool.true_and, BitVec.getLsbD_append]
  obtain rfl | rfl | rfl | rfl : n = 0 ∨ n = 1 ∨ n = 2 ∨ n = 3 := by omega
  · simp [hi]
  · simp [show ¬ 8 + i < 8 by omega, show 8 + i - 8 = i by omega, hi]
  · simp [show ¬ 16 + i < 8 by omega, show ¬ 16 + i - 8 < 8 by omega, show 16 + i - 8 - 8 = i by omega, hi]
  · simp [show ¬ 24 + i < 8 by omega, show ¬ 24 + i - 8 < 8 by omega, show ¬ 24 + i - 8 - 8 < 8 by omega,
      show 24 + i - 8 - 8 - 8 = i by omega]

end Sys2Proof.Machine
end

