-- ==== Sys2Proof/Laws/State.lean ====
section
/-! SUPPORT. What each update of State does to each field, one lemma a field, so that no proof unfolds a record update. -/

namespace Sys2Proof.Machine

variable (s : State)

@[simp] theorem State.setElem_regs (r : Reg) (v : Elem) : (s.setElem r v).regs = s.regs.set r v := rfl
@[simp] theorem State.setElem_txt (r : Reg) (v : Elem) : (s.setElem r v).txt = s.txt := rfl
@[simp] theorem State.setElem_busy (r : Reg) (v : Elem) : (s.setElem r v).busy = s.busy := rfl
@[simp] theorem State.setElem_fatal (r : Reg) (v : Elem) : (s.setElem r v).fatal = s.fatal := rfl
@[simp] theorem State.setElem_herr (r : Reg) (v : Elem) : (s.setElem r v).herr = s.herr := rfl
@[simp] theorem State.setElem_err (r : Reg) (v : Elem) : (s.setElem r v).err = s.err := rfl
@[simp] theorem State.setElem_result (r : Reg) (v : Elem) : (s.setElem r v).result = s.result := rfl
@[simp] theorem State.setElem_pend (r : Reg) (v : Elem) : (s.setElem r v).pend = s.pend := rfl
@[simp] theorem State.setElem_tblReady (r : Reg) (v : Elem) : (s.setElem r v).tblReady = s.tblReady := rfl
@[simp] theorem State.setElem_tbl (r : Reg) (v : Elem) : (s.setElem r v).tbl = s.tbl := rfl
@[simp] theorem State.setElem_hostIn (r : Reg) (v : Elem) : (s.setElem r v).hostIn = s.hostIn := rfl
@[simp] theorem State.setElem_replies (r : Reg) (v : Elem) : (s.setElem r v).replies = s.replies := rfl

@[simp] theorem State.setResult_regs (v : Word) : (s.setResult v).regs = s.regs := rfl
@[simp] theorem State.setResult_txt (v : Word) : (s.setResult v).txt = s.txt := rfl
@[simp] theorem State.setResult_busy (v : Word) : (s.setResult v).busy = s.busy := rfl
@[simp] theorem State.setResult_fatal (v : Word) : (s.setResult v).fatal = s.fatal := rfl
@[simp] theorem State.setResult_herr (v : Word) : (s.setResult v).herr = s.herr := rfl
@[simp] theorem State.setResult_err (v : Word) : (s.setResult v).err = s.err := rfl
@[simp] theorem State.setResult_result (v : Word) : (s.setResult v).result = v := rfl
@[simp] theorem State.setResult_pend (v : Word) : (s.setResult v).pend = s.pend := rfl
@[simp] theorem State.setResult_tblReady (v : Word) : (s.setResult v).tblReady = s.tblReady := rfl
@[simp] theorem State.setResult_tbl (v : Word) : (s.setResult v).tbl = s.tbl := rfl
@[simp] theorem State.setResult_hostIn (v : Word) : (s.setResult v).hostIn = s.hostIn := rfl
@[simp] theorem State.setResult_replies (v : Word) : (s.setResult v).replies = s.replies := rfl

@[simp] theorem State.setText_regs (str : List Byte) : (s.setText str).regs = s.regs := rfl
@[simp] theorem State.setText_txt (str : List Byte) : (s.setText str).txt = memWriteBytes s.txt 0 (str ++ [Config.term]) := rfl
@[simp] theorem State.setText_busy (str : List Byte) : (s.setText str).busy = s.busy := rfl
@[simp] theorem State.setText_fatal (str : List Byte) : (s.setText str).fatal = s.fatal := rfl
@[simp] theorem State.setText_herr (str : List Byte) : (s.setText str).herr = s.herr := rfl
@[simp] theorem State.setText_err (str : List Byte) : (s.setText str).err = s.err := rfl
@[simp] theorem State.setText_result (str : List Byte) : (s.setText str).result = s.result := rfl
@[simp] theorem State.setText_pend (str : List Byte) : (s.setText str).pend = s.pend := rfl
@[simp] theorem State.setText_tblReady (str : List Byte) : (s.setText str).tblReady = s.tblReady := rfl
@[simp] theorem State.setText_tbl (str : List Byte) : (s.setText str).tbl = s.tbl := rfl
@[simp] theorem State.setText_hostIn (str : List Byte) : (s.setText str).hostIn = s.hostIn := rfl
@[simp] theorem State.setText_replies (str : List Byte) : (s.setText str).replies = s.replies := rfl

@[simp] theorem State.complete_regs (k : ErrKind) : (s.complete k).regs = s.regs := rfl
@[simp] theorem State.complete_txt (k : ErrKind) : (s.complete k).txt = s.txt := rfl
@[simp] theorem State.complete_busy (k : ErrKind) : (s.complete k).busy = false := rfl
@[simp] theorem State.complete_fatal (k : ErrKind) : (s.complete k).fatal = s.fatal := rfl
@[simp] theorem State.complete_herr (k : ErrKind) : (s.complete k).herr = s.herr := rfl
@[simp] theorem State.complete_err (k : ErrKind) : (s.complete k).err = k := rfl
@[simp] theorem State.complete_result (k : ErrKind) : (s.complete k).result = s.result := rfl
@[simp] theorem State.complete_pend (k : ErrKind) : (s.complete k).pend = s.pend := rfl
@[simp] theorem State.complete_tblReady (k : ErrKind) : (s.complete k).tblReady = s.tblReady := rfl
@[simp] theorem State.complete_tbl (k : ErrKind) : (s.complete k).tbl = s.tbl := rfl
@[simp] theorem State.complete_hostIn (k : ErrKind) : (s.complete k).hostIn = s.hostIn := rfl
@[simp] theorem State.complete_replies (k : ErrKind) : (s.complete k).replies = s.replies := rfl

@[simp] theorem State.protocolError_regs : (s.protocolError).regs = s.regs := rfl
@[simp] theorem State.protocolError_txt : (s.protocolError).txt = s.txt := rfl
@[simp] theorem State.protocolError_busy : (s.protocolError).busy = s.busy := rfl
@[simp] theorem State.protocolError_fatal : (s.protocolError).fatal = s.fatal := rfl
@[simp] theorem State.protocolError_herr : (s.protocolError).herr = true := rfl
@[simp] theorem State.protocolError_err : (s.protocolError).err = s.err := rfl
@[simp] theorem State.protocolError_result : (s.protocolError).result = s.result := rfl
@[simp] theorem State.protocolError_pend : (s.protocolError).pend = s.pend := rfl
@[simp] theorem State.protocolError_tblReady : (s.protocolError).tblReady = s.tblReady := rfl
@[simp] theorem State.protocolError_tbl : (s.protocolError).tbl = s.tbl := rfl
@[simp] theorem State.protocolError_hostIn : (s.protocolError).hostIn = s.hostIn := rfl
@[simp] theorem State.protocolError_replies : (s.protocolError).replies = s.replies := rfl

@[simp] theorem State.reply_regs (d : Word) : (s.reply d).regs = s.regs := rfl
@[simp] theorem State.reply_txt (d : Word) : (s.reply d).txt = s.txt := rfl
@[simp] theorem State.reply_busy (d : Word) : (s.reply d).busy = s.busy := rfl
@[simp] theorem State.reply_fatal (d : Word) : (s.reply d).fatal = s.fatal := rfl
@[simp] theorem State.reply_herr (d : Word) : (s.reply d).herr = s.herr := rfl
@[simp] theorem State.reply_err (d : Word) : (s.reply d).err = s.err := rfl
@[simp] theorem State.reply_result (d : Word) : (s.reply d).result = s.result := rfl
@[simp] theorem State.reply_pend (d : Word) : (s.reply d).pend = s.pend := rfl
@[simp] theorem State.reply_tblReady (d : Word) : (s.reply d).tblReady = s.tblReady := rfl
@[simp] theorem State.reply_tbl (d : Word) : (s.reply d).tbl = s.tbl := rfl
@[simp] theorem State.reply_hostIn (d : Word) : (s.reply d).hostIn = s.hostIn := rfl
@[simp] theorem State.reply_replies (d : Word) : (s.reply d).replies = d :: s.replies := rfl

@[simp] theorem State.accept_regs (cw : Word) : (s.accept cw).regs = s.regs := rfl
@[simp] theorem State.accept_txt (cw : Word) : (s.accept cw).txt = s.txt := rfl
@[simp] theorem State.accept_busy (cw : Word) : (s.accept cw).busy = true := rfl
@[simp] theorem State.accept_fatal (cw : Word) : (s.accept cw).fatal = s.fatal := rfl
@[simp] theorem State.accept_herr (cw : Word) : (s.accept cw).herr = s.herr := rfl
@[simp] theorem State.accept_err (cw : Word) : (s.accept cw).err = s.err := rfl
@[simp] theorem State.accept_result (cw : Word) : (s.accept cw).result = s.result := rfl
@[simp] theorem State.accept_pend (cw : Word) : (s.accept cw).pend = cw := rfl
@[simp] theorem State.accept_tblReady (cw : Word) : (s.accept cw).tblReady = s.tblReady := rfl
@[simp] theorem State.accept_tbl (cw : Word) : (s.accept cw).tbl = s.tbl := rfl
@[simp] theorem State.accept_hostIn (cw : Word) : (s.accept cw).hostIn = s.hostIn := rfl
@[simp] theorem State.accept_replies (cw : Word) : (s.accept cw).replies = s.replies := rfl

@[simp] theorem State.setStream_regs (es : List HostEvent) : (s.setStream es).regs = s.regs := rfl
@[simp] theorem State.setStream_txt (es : List HostEvent) : (s.setStream es).txt = s.txt := rfl
@[simp] theorem State.setStream_busy (es : List HostEvent) : (s.setStream es).busy = s.busy := rfl
@[simp] theorem State.setStream_fatal (es : List HostEvent) : (s.setStream es).fatal = s.fatal := rfl
@[simp] theorem State.setStream_herr (es : List HostEvent) : (s.setStream es).herr = s.herr := rfl
@[simp] theorem State.setStream_err (es : List HostEvent) : (s.setStream es).err = s.err := rfl
@[simp] theorem State.setStream_result (es : List HostEvent) : (s.setStream es).result = s.result := rfl
@[simp] theorem State.setStream_pend (es : List HostEvent) : (s.setStream es).pend = s.pend := rfl
@[simp] theorem State.setStream_tblReady (es : List HostEvent) : (s.setStream es).tblReady = s.tblReady := rfl
@[simp] theorem State.setStream_tbl (es : List HostEvent) : (s.setStream es).tbl = s.tbl := rfl
@[simp] theorem State.setStream_hostIn (es : List HostEvent) : (s.setStream es).hostIn = es := rfl
@[simp] theorem State.setStream_replies (es : List HostEvent) : (s.setStream es).replies = s.replies := rfl

/-- Reading a register after writing one (R14, R36). -/
theorem State.elem_setElem (r q : Reg) (v : Elem) : (s.setElem r v).elem q = if r = q then v else s.elem q := by
  simp [State.elem, State.setElem, Vector.getElem_set, Fin.ext_iff]

@[simp] theorem State.elem_setElem_self (r : Reg) (v : Elem) : (s.setElem r v).elem r = v := by
  simp [State.elem_setElem]

theorem State.elem_setElem_ne (r q : Reg) (v : Elem) (h : q ≠ r) : (s.setElem r v).elem q = s.elem q := by
  rw [State.elem_setElem, if_neg (Ne.symm h)]

@[simp] theorem State.elem_setResult (v : Word) (r : Reg) : (s.setResult v).elem r = s.elem r := rfl
@[simp] theorem State.elem_setText (str : List Byte) (r : Reg) : (s.setText str).elem r = s.elem r := rfl
@[simp] theorem State.elem_complete (k : ErrKind) (r : Reg) : (s.complete k).elem r = s.elem r := rfl
@[simp] theorem State.elem_protocolError (r : Reg) : (s.protocolError).elem r = s.elem r := rfl
@[simp] theorem State.elem_reply (d : Word) (r : Reg) : (s.reply d).elem r = s.elem r := rfl
@[simp] theorem State.elem_accept (cw : Word) (r : Reg) : (s.accept cw).elem r = s.elem r := rfl
@[simp] theorem State.elem_setStream (es : List HostEvent) (r : Reg) : (s.setStream es).elem r = s.elem r := rfl

/-- Two states with the same fields are the same state, the registers compared one by one. -/
theorem State.ext_elem {s t : State} (hregs : ∀ r, s.elem r = t.elem r) (htxt : s.txt = t.txt) (hbusy : s.busy = t.busy)
    (hfatal : s.fatal = t.fatal) (hherr : s.herr = t.herr) (herr : s.err = t.err) (hresult : s.result = t.result)
    (hpend : s.pend = t.pend) (hready : s.tblReady = t.tblReady) (htbl : s.tbl = t.tbl) (hin : s.hostIn = t.hostIn)
    (hrep : s.replies = t.replies) : s = t := by
  have : s.regs = t.regs := Vector.ext fun i hi => hregs ⟨i, hi⟩
  cases s
  cases t
  simp_all

end Sys2Proof.Machine
end

