-- ==== Sys2Proof/Laws/Table.lean ====
section
/-! SUPPORT. The builder's double loop (R164) gives the listing of R167: on powers between 1 and 586 the test of R162 is four equations, and these are evaluated for all pairs. -/

namespace Sys2Proof.Machine

/-- The test of R162 on two integers in [1, 586], one equation for each sign combination. -/
def hitEquations (p q : Nat) : Bool :=
  Nat.beq (p + q) 588 || Nat.beq p (q + 1) || (Nat.beq q (p + 1) || Nat.beq (p + q) 586)

theorem norm_eq_emod (v : Int) : norm v = v % 587 := by unfold norm; omega

/-- A residue is 1 when the integer is 1, 588, −586 or −1173: the only candidates between −1172 and 1172 are the first three. -/
theorem emod_eq_one_iff (v : Int) (h : -1172 ≤ v ∧ v ≤ 1172) : v % 587 = 1 ↔ v = 1 ∨ v = 588 ∨ v = -586 := by omega

theorem any_signs_eq_hitEquations (p q : Nat) (hp : 1 ≤ p ∧ p ≤ 586) (hq : 1 ≤ q ∧ q ≤ 586) :
    ([(1 : Int), -1].any fun s1 => [(1 : Int), -1].any fun s2 => norm (s1 * p + s2 * q) == 1) = hitEquations p q := by
  have hbeq : ∀ a b : Nat, Nat.beq a b = true ↔ a = b := fun a b => Nat.beq_eq ▸ Iff.rfl
  have pp : (1 * (p : Int) + 1 * q) % 587 = 1 ↔ p + q = 588 := by rw [emod_eq_one_iff _ (by omega)]; omega
  have pm : (1 * (p : Int) + -1 * q) % 587 = 1 ↔ p = q + 1 := by rw [emod_eq_one_iff _ (by omega)]; omega
  have mp : (-1 * (p : Int) + 1 * q) % 587 = 1 ↔ q = p + 1 := by rw [emod_eq_one_iff _ (by omega)]; omega
  have mm : (-1 * (p : Int) + -1 * q) % 587 = 1 ↔ p + q = 586 := by rw [emod_eq_one_iff _ (by omega)]; omega
  rw [Bool.eq_iff_iff]
  simp only [hitEquations, List.any_cons, List.any_nil, Bool.or_false, Bool.or_eq_true, beq_iff_eq, norm_eq_emod, hbeq,
    pp, pm, mp, mm]

theorem pow2_succ (k : Nat) : pow2 (k + 1) = 2 * pow2 k % 587 := rfl

theorem pow2_le (k : Nat) : pow2 k ≤ 586 := by
  cases k with
  | zero => decide
  | succ k => rw [pow2_succ]; omega

/-- No power of 2 is 0 modulo 587. -/
theorem pow2_pos (k : Nat) : 1 ≤ pow2 k := by
  induction k with
  | zero => decide
  | succ k ih =>
    have := pow2_le k
    rw [pow2_succ]
    omega

theorem hit_eq (i j : Pos) : hit i j = hitEquations (pow2 i) (pow2 j) :=
  any_signs_eq_hitEquations _ _ ⟨pow2_pos _, pow2_le _⟩ ⟨pow2_pos _, pow2_le _⟩

/-- The powers as R161 lists them. -/
def powersListing : List Nat :=
  [1, 2, 4, 8, 16, 32, 64, 128, 256, 512, 437, 287, 574, 561, 535, 483,
   379, 171, 342, 97, 194, 388, 189, 378, 169, 338, 89, 178, 356, 125, 250, 500,
   413, 239, 478, 369, 151, 302, 17, 34, 68, 136, 272, 544, 501, 415, 243, 486,
   385, 183, 366, 145, 290, 580, 573, 559, 531, 475, 363, 139, 278, 556, 525, 463,
   339, 91, 182, 364, 141, 282, 564, 541, 495, 403, 219, 438, 289, 578, 569, 551] ++
  [515, 443, 299, 11, 22, 44, 88, 176, 352, 117, 234, 468, 349, 111, 222, 444,
   301, 15, 30, 60, 120, 240, 480, 373, 159, 318, 49, 98, 196, 392, 197, 394,
   201, 402, 217, 434, 281, 562, 537, 487, 387, 187, 374, 161, 322, 57, 114, 228,
   456, 325, 63, 126, 252, 504, 421, 255, 510, 433, 279, 558, 529, 471, 355, 123,
   246, 492, 397, 207, 414, 241, 482, 377, 167, 334, 81, 162, 324, 61, 122, 244] ++
  [488, 389, 191, 382, 177, 354, 121, 242, 484, 381, 175, 350, 113, 226, 452, 317,
   47, 94, 188, 376, 165, 330, 73, 146, 292, 584, 581, 575, 563, 539, 491, 395,
   203, 406, 225, 450, 313, 39, 78, 156, 312, 37, 74, 148, 296, 5, 10, 20,
   40, 80, 160, 320, 53, 106, 212, 424, 261, 522, 457, 327, 67, 134, 268, 536,
   485, 383, 179, 358, 129, 258, 516, 445, 303, 19, 38, 76, 152, 304, 21, 42] ++
  [84, 168, 336, 85, 170, 340, 93, 186, 372, 157, 314, 41, 82, 164, 328, 69,
   138, 276, 552, 517, 447, 307, 27, 54, 108, 216, 432, 277, 554, 521, 455, 323,
   59, 118, 236, 472, 357, 127, 254, 508, 429, 271, 542, 497, 407, 227, 454, 321,
   55, 110, 220, 440, 293]

/-- Each position with its power, from the listing. -/
def indexedPowers : List (Pos × Nat) := (List.finRange 293).zip powersListing

/-- The powers of R161's listing are those of its rule. -/
theorem indexedPowers_eq : (List.finRange 293).map (fun j => ((j, pow2 j) : Pos × Nat)) = indexedPowers := by
  decide +kernel

theorem indexed_build_eq_table :
    (indexedPowers.flatMap fun p => indexedPowers.filterMap fun q : Pos × Nat =>
      if hitEquations p.2 q.2 then some (p.1, q.1) else none) = table := by
  decide +kernel

/-- The builder builds the listing of R167 (R164, R165). -/
theorem buildPairs_eq_table : buildPairs = table := by
  rw [← indexed_build_eq_table, ← indexedPowers_eq]
  simp only [buildPairs, hit_eq, List.flatMap_map, List.filterMap_map, Function.comp_def]

theorem table_length : table.length = 585 := by decide +kernel

/-- What a first use of the table leaves (R168): the failure branch of R169 is never taken. -/
theorem build_eq (s : State) : build s = { s with tbl := table, tblReady := true } := by
  rw [build, if_pos table_length]

/-- T is the set of the pairs that pass the test (R165). -/
theorem mem_table (p : Pair) : p ∈ table ↔ hit p.1 p.2 = true := by
  rw [← buildPairs_eq_table]
  simp [buildPairs, List.mem_flatMap, List.mem_filterMap, Prod.ext_iff]

end Sys2Proof.Machine
end

