-- ==== Sys2Proof/Laws/Text.lean ====
section
/-! SUPPORT. The text forms: the lengths of the strings, so that they fit in TXT (R64), and that what the decoders give is canonical. -/

namespace Sys2Proof.Machine

@[simp] theorem binString_length (x : Elem) : (binString x).length = 293 := by simp [binString]

/-- c[k] of the binary string (R226). -/
theorem binString_getElem (x : Elem) (k : Pos) :
    (binString x)[k.val]'(by simp) = binChar (getBit x k.rev) := by simp [binString]

theorem stripZeros_length_pos (l : List Nibble) : 1 ≤ (stripZeros l).length := by
  rw [stripZeros]
  split <;> simp

theorem stripZeros_length_le {l : List Nibble} (h : 1 ≤ l.length) : (stripZeros l).length ≤ l.length := by
  have hle := (List.dropWhile_sublist (p := fun d : Nibble => d == 0) (l := l)).length_le
  rw [stripZeros]
  split
  · simpa using h
  · rename_i heq
    rw [heq] at hle
    exact hle

/-- The hexadecimal string has 1 to 74 characters (R236). -/
theorem hexString_length (upper : Bool) (x : Elem) :
    1 ≤ (hexString upper x).length ∧ (hexString upper x).length ≤ 74 := by
  have hlen : (nibblesMsbFirst x).length = 74 := by simp [nibblesMsbFirst]
  have := stripZeros_length_le (l := nibblesMsbFirst x) (by omega)
  simp only [hexString, List.length_map]
  exact ⟨stripZeros_length_pos _, by omega⟩

theorem isCanonical_parseBin {m : Txt} {z : Elem} (h : parseBin m = some z) : isCanonical z = true := by
  have hfold : ∀ (l : List Pos) (y : Elem), isCanonical y = true →
      isCanonical (l.foldl (fun z (k : Pos) => if memRead m k.val = 0x31 then setBit z k.rev else z) y) = true := by
    intro l
    induction l with
    | nil => exact fun _ hy => hy
    | cons k l ih =>
      intro y hy
      rw [List.foldl_cons]
      apply ih
      split
      · exact isCanonical_setBit _ hy
      · exact hy
  rw [parseBin] at h
  split at h
  · rw [Option.some.injEq] at h
    exact h ▸ hfold _ _ isCanonical_zeroV
  · contradiction

theorem isCanonical_parseHex {m : Txt} {z : Elem} (h : parseHex m = .ok z) : isCanonical z = true := by
  rw [parseHex] at h
  split at h
  · contradiction
  · contradiction
  · split at h
    · contradiction
    · rw [Except.ok.injEq] at h
      exact h ▸ isCanonical_canonicalize _

/-- FROMHEX fails in three ways only (R262). -/
theorem parseHex_error {m : Txt} {k : ErrKind} (h : parseHex m = .error k) :
    k = .overflow ∨ k = .invalidFormat ∨ k = .invalidDigit := by
  rw [parseHex] at h
  split at h
  · rw [Except.error.injEq] at h
    exact .inl h.symm
  · rw [Except.error.injEq] at h
    exact .inr (.inl h.symm)
  · split at h
    · rw [Except.error.injEq] at h
      exact .inr (.inr h.symm)
    · contradiction

/-- Setting the positions named by a list, one by one. -/
theorem getBit_foldl_setBit (l : List Pos) (c : Pos → Prop) [DecidablePred c] (z : Elem) (i : Pos) :
    getBit (l.foldl (fun z k => if c k then setBit z k.rev else z) z) i =
      (getBit z i || decide (∃ k ∈ l, c k ∧ k.rev = i)) := by
  induction l generalizing z with
  | nil => simp
  | cons k l ih =>
    rw [List.foldl_cons, ih]
    by_cases h : c k
    · by_cases hi : i = k.rev
      · simp [h, hi, getBit_setBit]
      · simp [h, hi, getBit_setBit, Ne.symm hi]
    · simp [h]

/-- What FROMBIN reads, position by position (R230). -/
theorem getBit_parseBin {m : Txt} {z : Elem} (h : parseBin m = some z) (k : Pos) :
    getBit z k.rev = decide (memRead m k.val = 0x31) := by
  rw [parseBin] at h
  split at h
  · rw [← Option.some.inj h, getBit_foldl_setBit]
    simp [Fin.rev_inj]
  · contradiction

/-- The text is one FROMBIN reads: 293 characters and the terminator at index 293 (R230). -/
theorem parseBin_isSome (m : Txt) : (parseBin m).isSome = true ↔
    (∀ k < 293, memRead m k = 0x30 ∨ memRead m k = 0x31) ∧ memRead m 293 = 0x00 := by
  rw [parseBin]
  split <;> rename_i h <;> simpa [memReadBytes, isBinChar] using h

/-- The digits' value, most significant first (R240). -/
theorem hexNumber_append (acc : Nat) (bs : List Byte) (b : Byte) :
    hexNumber acc (bs ++ [b]) = (hexNumber acc bs).bind fun v => (hexVal b).map fun d => 16 * v + d := by
  induction bs generalizing acc with
  | nil => cases h : hexVal b <;> simp [hexNumber, h]
  | cons c bs ih =>
    simp only [List.cons_append, hexNumber]
    cases hexVal c with
    | none => rfl
    | some d => exact ih _

end Sys2Proof.Machine
end

