-- ==== Sys2Proof/Laws/Ops.lean ====
section
/-! SUPPORT. What each shared operation over the state can answer, once. -/

namespace Sys2Proof.Machine

/-- A command answers in four ways: one of the failures of R84's steps 1 to 3, in that order, or its own rule. -/
theorem command_cases (s : State) (legal : Bool) (srcs : List Reg) (body : Result) :
    (s.fatal = true ∧ command s legal srcs body = failWith s .tableFatal) ∨
    (s.fatal = false ∧ legal = false ∧ command s legal srcs body = failWith s .illegalCommand) ∨
    (s.fatal = false ∧ legal = true ∧ (∃ r ∈ srcs, isCanonical (s.elem r) = false) ∧
      command s legal srcs body = failWith s .nonCanonical) ∨
    (s.fatal = false ∧ legal = true ∧ (∀ r ∈ srcs, isCanonical (s.elem r) = true) ∧
      command s legal srcs body = body) := by
  unfold command
  by_cases hf : s.fatal = true
  · simp [hf]
  · by_cases hl : legal = true
    · by_cases hc : (srcs.all fun r => isCanonical (s.elem r)) = true
      · have h : ∀ r ∈ srcs, isCanonical (s.elem r) = true := List.all_eq_true.mp hc
        simp only [hf, hl, hc]
        simp_all
      · have h : ∃ r ∈ srcs, isCanonical (s.elem r) = false := by simpa using hc
        simp only [hf, hl, hc]
        simp_all
    · simp_all

/-- The own rule of a command runs exactly when no check before it fails (R84). -/
theorem command_runs {s : State} {srcs : List Reg} {body : Result} (hf : s.fatal = false)
    (hc : ∀ r ∈ srcs, isCanonical (s.elem r) = true) : command s true srcs body = body := by
  have : (srcs.all fun r => isCanonical (s.elem r)) = true := List.all_eq_true.mpr hc
  simp [command, hf, this]

theorem command_fatal {s : State} {legal : Bool} {srcs : List Reg} {body : Result} (hf : s.fatal = true) :
    command s legal srcs body = .next (s.complete .tableFatal) := by simp [command, hf, failWith]

theorem command_illegal {s : State} {srcs : List Reg} {body : Result} (hf : s.fatal = false) :
    command s false srcs body = .next (s.complete .illegalCommand) := by simp [command, hf, failWith]

theorem command_nonCanonical {s : State} {srcs : List Reg} {body : Result} {r : Reg} (hf : s.fatal = false)
    (hr : r ∈ srcs) (hn : isCanonical (s.elem r) = false) :
    command s true srcs body = .next (s.complete .nonCanonical) := by
  have : (srcs.all fun r => isCanonical (s.elem r)) = false := List.all_eq_false.mpr ⟨r, hr, by simp [hn]⟩
  simp [command, hf, this, failWith]

theorem illegalWord_eq (s : State) :
    illegalWord s = .next (s.complete (if s.fatal then .tableFatal else .illegalCommand)) := by
  unfold illegalWord
  split
  · exact command_fatal ‹_›
  · exact command_illegal (by simpa using ‹¬ s.fatal = true›)

/-- The table as a command finds it changes only `tbl` and `tbl_ready`, and only at first use (R168, R310). -/
theorem prepareTable_eq (s : State) (used : Bool) :
    prepareTable s used = if used && !s.tblReady then { s with tbl := table, tblReady := true } else s := by
  unfold prepareTable
  split
  · exact build_eq s
  · rfl

/-- A command that multiplies succeeds, since the build does (R166). -/
theorem writeWithTable_eq {s : State} (hf : s.fatal = false) (used : Bool) (rd : Reg) (f : List Pair → Elem) :
    writeWithTable s used rd f =
      .next (((prepareTable s used).setElem rd (f (prepareTable s used).tbl)).complete .ok) := by
  have h : (prepareTable s used).fatal = false := by
    rw [prepareTable_eq]
    split <;> exact hf
  simp [writeWithTable, succeed, h]

/-- In a sound state a command that uses the table computes with T (R165, R310). -/
theorem prepareTable_tbl {s : State} {used : Bool} (hready : s.tblReady = true → s.tbl = table) (hu : used = true) :
    (prepareTable s used).tbl = table := by
  subst hu
  rw [prepareTable_eq]
  by_cases h : s.tblReady = true
  · simp [h, hready h]
  · simp [h]

/-- A string of at most 511 characters and its terminator keep TXT canonical. -/
theorem Memory.wf_setText {s : State} {str : List Byte} (h : str.length ≤ 511) (hs : Memory.wf s.txt) :
    Memory.wf (s.setText str).txt :=
  Memory.wf_memWriteBytes (by simp; omega) hs

/-- TXT after a string is written: the characters, the terminator, every other byte as before (R65). -/
theorem memRead_setText {s : State} {str : List Byte} (h : str.length ≤ 511) (hs : Memory.wf s.txt) (q : Nat) :
    memRead (s.setText str).txt q =
      if h : q < str.length then str[q] else if q = str.length then 0x00 else memRead s.txt q := by
  rw [State.setText_txt, memRead_memWriteBytes (by simp; omega) hs]
  simp only [Nat.zero_le, true_and, Nat.zero_add, List.length_append, List.length_singleton, Nat.sub_zero]
  by_cases h1 : q < str.length
  · rw [dif_pos (by omega), dif_pos h1, List.getElem_append_left h1]
  · rw [dif_neg h1]
    by_cases h2 : q = str.length
    · subst h2
      simp
    · rw [dif_neg (by omega), if_neg h2]

end Sys2Proof.Machine
end

