-- ==== Sys2Proof/Laws/PerInstr.lean ====
section
/-! SUPPORT. Per-command facts about the encoding: the operation code field of a command's word is the command's operation code (R81, R83). -/

namespace Sys2Proof.Laws.OpcodeField

/-- OPC of the encoded word is the command's operation code, for every value of its operands. -/
def Statement (i : Instr) : Prop := opcField (encode i) = i.opcode

theorem zero (rd : Reg) : Statement (.zero rd) := opcField_packWord _ _ rd.isLt (by decide) (by decide)

theorem one (rd : Reg) : Statement (.one rd) := opcField_packWord _ _ rd.isLt (by decide) (by decide)

theorem mov (rd rs1 : Reg) : Statement (.mov rd rs1) := opcField_packWord _ _ rd.isLt rs1.isLt (by decide)

theorem canon (rd rs1 : Reg) : Statement (.canon rd rs1) := opcField_packWord _ _ rd.isLt rs1.isLt (by decide)

theorem iszero (rs1 : Reg) : Statement (.iszero rs1) := opcField_packWord _ _ (by decide) rs1.isLt (by decide)

theorem isone (rs1 : Reg) : Statement (.isone rs1) := opcField_packWord _ _ (by decide) rs1.isLt (by decide)

theorem trace (rs1 : Reg) : Statement (.trace rs1) := opcField_packWord _ _ (by decide) rs1.isLt (by decide)

theorem add (rd rs1 rs2 : Reg) : Statement (.add rd rs1 rs2) := opcField_packWord _ _ rd.isLt rs1.isLt rs2.isLt

theorem sqr (rd rs1 : Reg) : Statement (.sqr rd rs1) := opcField_packWord _ _ rd.isLt rs1.isLt (by decide)

theorem mul (rd rs1 rs2 : Reg) : Statement (.mul rd rs1 rs2) := opcField_packWord _ _ rd.isLt rs1.isLt rs2.isLt

theorem pow (rd rs1 rs2 : Reg) : Statement (.pow rd rs1 rs2) := opcField_packWord _ _ rd.isLt rs1.isLt rs2.isLt

theorem inv (rd rs1 : Reg) : Statement (.inv rd rs1) := opcField_packWord _ _ rd.isLt rs1.isLt (by decide)

theorem tobin (rs1 : Reg) (cap : Cap) : Statement (.tobin rs1 cap) :=
  opcField_packWord _ _ (by decide) rs1.isLt (by decide)

theorem frombin (rd : Reg) : Statement (.frombin rd) := opcField_packWord _ _ rd.isLt (by decide) (by decide)

theorem tohex (rs1 : Reg) (cap : Cap) : Statement (.tohex rs1 cap) :=
  opcField_packWord _ _ (by decide) rs1.isLt (by decide)

theorem fromhex (rd : Reg) : Statement (.fromhex rd) := opcField_packWord _ _ rd.isLt (by decide) (by decide)

end Sys2Proof.Laws.OpcodeField
end

