-- ==== Sys2Proof/Laws/Port.lean ====
section
/-! SUPPORT. What one host transaction can do to the state, once (R52, R53, R59, R62). -/

namespace Sys2Proof.Machine

/-- A read appends its answer and may raise HERR; it changes nothing else (R52, R62). -/
theorem hostRead_cases (s : State) (off : Offset) :
    (∃ d, hostReadValue s off = some d ∧ hostRead s off = s.reply d) ∨
    (hostReadValue s off = none ∧ hostRead s off = s.protocolError.reply 0) := by
  unfold hostRead
  split
  · exact .inl ⟨_, ‹_›, rfl⟩
  · exact .inr ⟨‹_›, rfl⟩

/-- A write is a protocol error, the acceptance of a command, one element word or one TXT word (R53). -/
theorem hostWrite_cases (s : State) (off : Offset) (d : Word) :
    hostWrite s off d = s.protocolError ∨
    (s.busy = false ∧
      (hostWrite s off d = s.accept d ∨
        (∃ r k, hostWrite s off d = s.setElem r (setElemWord (s.elem r) k d)) ∨
        (∃ j : Fin 128, hostWrite s off d = { s with txt := setTxtWord s.txt j d }))) := by
  unfold hostWrite
  split
  · exact .inl rfl
  · split
    · exact .inl rfl
    · have hb : s.busy = false := by simpa using ‹¬ s.busy = true›
      split
      · exact .inr ⟨hb, .inl rfl⟩
      · exact .inr ⟨hb, .inr (.inl ⟨_, _, rfl⟩)⟩
      · exact .inr ⟨hb, .inr (.inr ⟨_, rfl⟩)⟩
      · exact .inl rfl
      · exact .inl rfl
      · exact .inl rfl

/-- Misaligned is: not a multiple of 4 (R60). -/
theorem misaligned_eq (off : Offset) : misaligned off = decide (off.toNat % 4 ≠ 0) := by
  have h : (off.extractLsb' 0 2).toNat = off.toNat % 4 := by simp
  have hiff : off.extractLsb' 0 2 = 0 ↔ off.toNat % 4 = 0 := by rw [← BitVec.toNat_inj, h]; rfl
  rw [misaligned, Bool.eq_iff_iff, bne_iff_ne, decide_eq_true_iff, Ne, hiff]

/-- The offset of word k of register r (R54). -/
theorem hostTarget_elemWord {off : Offset} {r : Reg} {k : WordIdx} (h : off.toNat = 0x100 + 0x40 * r.val + 4 * k.val) :
    hostTarget off = .elemWord r k := by
  have := r.isLt
  have := k.isLt
  rw [hostTarget, if_neg (by omega), if_neg (by omega), if_neg (by omega), dif_pos (by omega), dif_pos (by omega)]
  congr 1 <;> apply Fin.ext <;> simp only <;> omega

/-- The offset of word j of TXT (R54). -/
theorem hostTarget_txtWord {off : Offset} {j : Nat} (hj : j < 128) (h : off.toNat = 0x400 + 4 * j) :
    hostTarget off = .txtWord ⟨j, hj⟩ := by
  rw [hostTarget, if_neg (by omega), if_neg (by omega), if_neg (by omega), dif_neg (by omega), dif_pos (by omega)]
  congr 1
  apply Fin.ext
  simp only
  omega

/-- What an aligned offset names, with its value (R54). -/
theorem hostTarget_cases (off : Offset) (h4 : off.toNat % 4 = 0) :
    (hostTarget off = .cmd ∧ off.toNat = 0x000) ∨ (hostTarget off = .status ∧ off.toNat = 0x004) ∨
    (hostTarget off = .result ∧ off.toNat = 0x008) ∨
    (∃ r k, hostTarget off = .elemWord r k ∧ off.toNat = 0x100 + 0x40 * r.val + 4 * k.val) ∨
    (∃ j, hostTarget off = .txtWord j ∧ off.toNat = 0x400 + 4 * j.val) ∨ hostTarget off = .unmapped := by
  unfold hostTarget
  split_ifs
  · exact .inl ⟨rfl, ‹_›⟩
  · exact .inr (.inl ⟨rfl, ‹_›⟩)
  · exact .inr (.inr (.inl ⟨rfl, ‹_›⟩))
  · exact .inr (.inr (.inr (.inl ⟨_, _, rfl, by simp only; omega⟩)))
  · simp
  · exact .inr (.inr (.inr (.inr (.inl ⟨_, rfl, by simp only; omega⟩))))
  · simp

end Sys2Proof.Machine
end

