-- ==== Sys2Proof/Laws/Step.lean ====
section
/-! SUPPORT. What a command and a step can answer, once: every invariant of the machine follows from these. -/

namespace Sys2Proof.Machine

/-- The five shapes of what a command answers: a failure (R266); a canonical element, or for MOV a copy, written to one register; the same after the table is ready (R168); a boolean in RESULT; a string in TXT with its length in RESULT. -/
inductive ExecShape (i : Instr) (s : State) : Result → Prop where
  | failed (k : ErrKind) (hk : k ≠ .ok) : ExecShape i s (.next (s.complete k))
  | element (rd : Reg) (v : Elem) (hv : isCanonical v = true ∨ ∃ rs1, i = .mov rd rs1 ∧ v = s.elem rs1) :
      ExecShape i s (.next ((s.setElem rd v).complete .ok))
  | product (rd : Reg) (used : Bool) (f : List Pair → Elem) (hf : ∀ tbl, isCanonical (f tbl) = true) :
      ExecShape i s (.next (((prepareTable s used).setElem rd (f (prepareTable s used).tbl)).complete .ok))
  | answer (b : Bool) : ExecShape i s (.next ((s.setResult (boolWord b)).complete .ok))
  | text (str : List Byte) (h : str.length ≤ 293) :
      ExecShape i s (.next (((s.setText str).setResult (BitVec.ofNat 32 str.length)).complete .ok))

/-- The failures of R84's steps 1 to 3 are of the first shape; what is left is the command's own rule. -/
theorem ExecShape.of_command {i : Instr} {s : State} {legal : Bool} {srcs : List Reg} {body : Result}
    (h : s.fatal = false → (∀ r ∈ srcs, isCanonical (s.elem r) = true) → ExecShape i s body) :
    ExecShape i s (command s legal srcs body) := by
  rcases command_cases s legal srcs body with ⟨_, e⟩ | ⟨_, _, e⟩ | ⟨_, _, _, e⟩ | ⟨hf, _, hc, e⟩
  · exact e ▸ .failed _ (by decide)
  · exact e ▸ .failed _ (by decide)
  · exact e ▸ .failed _ (by decide)
  · rw [e]
    exact h hf hc

theorem ExecShape.of_writeWithTable {i : Instr} {s : State} {used : Bool} {rd : Reg} {f : List Pair → Elem}
    (hs : s.fatal = false) (hf : ∀ tbl, isCanonical (f tbl) = true) : ExecShape i s (writeWithTable s used rd f) := by
  rw [writeWithTable_eq hs]
  exact .product rd used f hf

/-- Every answer of `exec` is a next state of one of the five shapes (R274). -/
theorem exec_shape (i : Instr) (s : State) : ExecShape i s (exec i s) := by
  cases i with
  | zero rd => exact .of_command fun _ _ => .element rd _ (.inl isCanonical_zeroV)
  | one rd => exact .of_command fun _ _ => .element rd _ (.inl isCanonical_oneV)
  | mov rd rs1 => exact .of_command fun _ _ => .element rd _ (.inr ⟨rs1, rfl, rfl⟩)
  | canon rd rs1 => exact .of_command fun _ _ => .element rd _ (.inl (isCanonical_canonicalize _))
  | iszero rs1 => exact .of_command fun _ _ => .answer _
  | isone rs1 => exact .of_command fun _ _ => .answer _
  | trace rs1 => exact .of_command fun _ _ => .answer _
  | add rd rs1 rs2 =>
    exact .of_command fun _ hc => .element rd _ (.inl (isCanonical_add (hc _ (by simp)) (hc _ (by simp))))
  | sqr rd rs1 => exact .of_command fun _ _ => .element rd _ (.inl (isCanonical_sqr _))
  | mul rd rs1 rs2 => exact .of_command fun hf _ => .of_writeWithTable hf fun _ => isCanonical_mul _ _ _
  | pow rd rs1 rs2 => exact .of_command fun hf _ => .of_writeWithTable hf fun _ => isCanonical_power _ _ _
  | inv rd rs1 => exact .of_command fun hf _ => .of_writeWithTable hf fun _ => isCanonical_invert _ _
  | tobin rs1 cap =>
    refine .of_command fun _ _ => ?_
    split
    · exact .failed .bufferTooSmall (by decide)
    · exact .text _ (binString_length _).le
  | frombin rd =>
    refine .of_command fun _ _ => ?_
    split
    · exact .element rd _ (.inl (isCanonical_parseBin ‹_›))
    · exact .failed .invalidFormat (by decide)
  | tohex rs1 cap =>
    refine .of_command fun _ _ => ?_
    split
    · exact .failed .bufferTooSmall (by decide)
    · exact .text _ ((hexString_length _ _).2.trans (by decide))
  | fromhex rd =>
    refine .of_command fun _ _ => ?_
    split
    · exact .element rd _ (.inl (isCanonical_parseHex ‹_›))
    · rename_i k hk
      exact .failed k (by rcases parseHex_error hk with h | h | h <;> rw [h] <;> decide)

/-- A step takes the first event of the stream, or the core's turn when there is none (R37). -/
theorem step_cases (s : State) :
    (s.hostIn = [] ∧ step s = coreTurn s) ∨
    (∃ e es, s.hostIn = e :: es ∧ step s = takeEvent (s.setStream es) e) := by
  unfold step
  split
  · exact .inl ⟨‹_›, rfl⟩
  · exact .inr ⟨_, _, ‹_›, rfl⟩

/-- The core's turn runs the pending command when BUSY = 1 and does nothing else (R31). -/
theorem coreTurn_cases (s : State) :
    (s.busy = false ∧ coreTurn s = .next s) ∨
    (s.busy = true ∧ ∃ i, decode s.pend = .ok i ∧ coreTurn s = exec i s) ∨
    (s.busy = true ∧ (∃ e, decode s.pend = .error e) ∧
      coreTurn s = .next (s.complete (if s.fatal then .tableFatal else .illegalCommand))) := by
  unfold coreTurn runPending
  by_cases hb : s.busy = true
  · rw [if_pos hb]
    split
    · exact .inr (.inl ⟨hb, _, ‹_›, rfl⟩)
    · exact .inr (.inr ⟨hb, ⟨_, ‹_›⟩, illegalWord_eq s⟩)
  · rw [if_neg hb]
    exact .inl ⟨by simpa using hb, rfl⟩

/-- A machine's run of one step more, from a state whose step answers a next state. -/
theorem run_succ (M : Host.Core) {s s' : M.State} (h : M.step s = .next s') (k : Nat) : M.run (k + 1) s = M.run k s' := by
  simp only [Host.Core.run, h]

/-- A run of one step more takes the step first. -/
theorem State.runsTo_succ {s s' : State} (h : step s = .next s') (k : Nat) (t : State) :
    s.runsTo (k + 1) t ↔ s'.runsTo k t := by
  rw [State.runsTo, State.runsTo, run_succ Sys2Proof.core h]

end Sys2Proof.Machine
end

