-- ==== Sys2Proof/Tests/Slice0.lean ====
section
/-! SUPPORT. Small tests: the well-formedness smoke, decoding of words written out from the spec's encodings, one or two vectors of 95_test_vectors.md (or hand calculations) for each command, the host port, and for each statement with hypotheses a state and operands that meet them. -/

open Sys2Proof Sys2Proof.Machine

namespace Sys2Proof.Tests

set_option Elab.async false

/-- The state after reset with some registers loaded. -/
def load (l : List (Reg × Elem)) : State := l.foldl (fun s p => s.setElem p.1 p.2) State.reset

/-- The state after the core step of a command word. -/
def after (s : State) (cw : Word) : State :=
  match step (placeCommand s cw) with
  | .next t => t
  | .fault _ => s
  | .refused _ => s

/-- The state after one host event. -/
def afterEvent (s : State) (e : HostEvent) : State :=
  match step (s.setStream [e]) with
  | .next t => t
  | .fault _ => s
  | .refused _ => s

/-- `w` in word 0, the other words 0. -/
def low (w : Word) : Elem := elemOfWords [w]

/-- The fixtures of 95_test_vectors.md section 2. -/
def fixD : Elem := low 0xdeadbeef
def fixX : Elem := elemOfWords [0x76543210, 0xfedcba98, 0x9abcdef0, 0x12345678]
def fixH : Elem := elemOfWords [0, 0, 0, 0, 0, 0, 0, 0, 0, 0x10]

/-- Only the excess position 293 set. -/
def excess : Elem := elemOfWords [0, 0, 0, 0, 0, 0, 0, 0, 0, 0x20]

/-- After reset with a text of non-zero bytes at index 0. -/
def withText (bs : List Byte) (l : List (Reg × Elem)) : State :=
  { load l with txt := bs.zipIdx.map fun p => (p.2, p.1) }

/-- Byte `k` of a text of `n` times the byte `b`. -/
theorem memRead_replicate (n : Nat) (b : Byte) (l : List (Reg × Elem)) (k : Nat) :
    memRead (withText (List.replicate n b) l).txt k = if k < n then b else 0x00 := by
  have h : ∀ n i, memRead (((List.replicate n b).zipIdx i).map fun p => (p.2, p.1)) k =
      if i ≤ k ∧ k < i + n then b else 0x00 := by
    intro n
    induction n with
    | zero => intro i; rw [if_neg (by omega)]; rfl
    | succ n ih =>
      intro i
      simp only [List.replicate_succ, List.zipIdx_cons, List.map_cons, memRead, ih]
      split_ifs <;> first | rfl | omega
  simpa [withText] using h n 0

theorem wf_replicate (n : Nat) (b : Byte) (hn : n ≤ 512) (hb : b ≠ 0) (l : List (Reg × Elem)) :
    Memory.wf (withText (List.replicate n b) l).txt := by
  have h : ∀ n i, i + n ≤ 512 → Memory.wf (((List.replicate n b).zipIdx i).map fun p => (p.2, p.1)) := by
    intro n
    induction n with
    | zero => intro i _; exact Memory.wf_nil
    | succ n ih =>
      intro i hi
      simp only [List.replicate_succ, List.zipIdx_cons, List.map_cons]
      refine Memory.wf_cons.mpr ⟨⟨?_, by omega, hb⟩, ih (i + 1) (by omega)⟩
      intro c hc
      obtain ⟨p, hp, rfl⟩ := List.mem_map.mp hc
      exact (List.mem_zipIdx hp).1
  exact h n 0 (by omega)

/-- The answer is a next state that meets `p`. -/
def nextMeets (p : State → Prop) [DecidablePred p] : Result → Bool
  | .next t => decide (p t)
  | .fault _ => false
  | .refused _ => false

theorem exists_next (p : State → Prop) [DecidablePred p] {r : Result} (h : nextMeets p r = true) :
    ∃ t, r = .next t ∧ p t := by
  cases r with
  | next t => exact ⟨t, rfl, of_decide_eq_true h⟩
  | fault e => exact nomatch e
  | refused e => contradiction

theorem answers_next {r : Result} (h : nextMeets (fun _ => True) r = true) : ∃ t, r = .next t :=
  (exists_next _ h).imp fun _ ht => ht.1

-- Well-formedness: a capacity above 512 is refused, 512 is not (R87)

theorem test_wf_tobin_capacity : (Instr.tobin 0 513).wf = false ∧ (Instr.tobin 0 512).wf = true := by decide

theorem test_wf_tohex_capacity : (Instr.tohex 0 1023).wf = false ∧ (Instr.tohex 0 0).wf = true := by decide

-- Decoding: words put together by hand from R82's bit pictures and R83's operation codes

theorem test_decode_zero : decode 0b00000001001100000000000000000000 = .ok (.zero 3) := by decide

theorem test_decode_one : decode 0b00000010000000000000000000000000 = .ok (.one 0) := by decide

theorem test_decode_mov : decode 0b00000011010000010000000000000000 = .ok (.mov 4 1) := by decide

theorem test_decode_canon : decode 0b00000100001001110000000000000000 = .ok (.canon 2 7) := by decide

theorem test_decode_iszero : decode 0b00001000000000100000000000000000 = .ok (.iszero 2) := by decide

theorem test_decode_isone : decode 0b00001001000000010000000000000000 = .ok (.isone 1) := by decide

theorem test_decode_trace : decode 0b00001010000001100000000000000000 = .ok (.trace 6) := by decide

theorem test_decode_add : decode 0b00010000001000000001000000000000 = .ok (.add 2 0 1) := by decide

theorem test_decode_sqr : decode 0b00010001001000010000000000000000 = .ok (.sqr 2 1) := by decide

theorem test_decode_mul : decode 0b00010010011101100101000000000000 = .ok (.mul 7 6 5) := by decide

theorem test_decode_pow : decode 0b00010011001000000001000000000000 = .ok (.pow 2 0 1) := by decide

theorem test_decode_inv : decode 0b00010100000100000000000000000000 = .ok (.inv 1 0) := by decide

theorem test_decode_tobin : decode 0b00100000000000000000000100100110 = .ok (.tobin 0 294) := by decide

theorem test_decode_frombin : decode 0b00100001000100000000000000000000 = .ok (.frombin 1) := by decide

theorem test_decode_tohex : decode 0b00100010000000110000000001001011 = .ok (.tohex 3 75) := by decide

theorem test_decode_fromhex : decode 0b00100011010100000000000000000000 = .ok (.fromhex 5) := by decide

/-- X1 to X7 and T10 of 95_test_vectors.md, by the condition of R85 that fails. -/
theorem test_decode_illegal :
    decode 0x00000000 = .error .reservedOpcode ∧ decode 0x05000000 = .error .reservedOpcode ∧
    decode 0xFFFFFFFF = .error .reservedOpcode ∧ decode 0x11180000 = .error .reservedRegister ∧
    decode 0x11100001 = .error .unusedField ∧ decode 0x01501000 = .error .unusedField ∧
    decode 0x22000400 = .error .unusedField ∧ decode 0x22000201 = .error .capacity := by decide

/-- R90's examples, encoded. -/
theorem test_encode_examples :
    encode (.mul 2 0 1) = 0x12201000 ∧ encode (.tohex 3 75) = 0x2203004B ∧ encode (.fromhex 5) = 0x23500000 := by decide

-- The commands

/-- A1: whatever the register held. -/
theorem test_zero : (after (load [(5, excess)]) 0x01500000).elem 5 = 0 := by decide +kernel

/-- A2. -/
theorem test_one : elemWord ((after State.reset 0x02500000).elem 5) 9 = 0x1f ∧
    elemWord ((after State.reset 0x02500000).elem 5) 8 = 0xffffffff := by decide +kernel

/-- V2 and X11: a non-canonical source is copied, outcome OK. -/
theorem test_mov_raw : (after (load [(0, excess)]) 0x03100000).elem 1 = excess ∧
    (after (load [(0, excess)]) 0x03100000).err = .ok := by decide +kernel

/-- V1: 0xfffffff5 & 0x1f = 0x15. -/
theorem test_canon : elemWord ((after (load [(0, setElemWord fixX 9 0xfffffff5)]) 0x04000000).elem 0) 9 = 0x15 := by
  decide +kernel

/-- A3 and A4. -/
theorem test_iszero : (after State.reset 0x08000000).result = 1 ∧
    (after (load [(0, low 1)]) 0x08000000).result = 0 := by decide +kernel

/-- V5: NonCanonical, STATUS = 0x00001100. -/
theorem test_iszero_nonCanonical : statusWord (after (load [(3, excess)]) 0x08030000) = 0x00001100 := by decide +kernel

/-- A6 and A7: position 292 clear answers 0; position 293 set is NonCanonical. -/
theorem test_isone : (after (load [(0, setElemWord oneV 9 0x0f)]) 0x09000000).result = 0 ∧
    (after (load [(0, setElemWord oneV 9 0x3f)]) 0x09000000).err = .nonCanonical := by decide +kernel

/-- S2 and section 2.7: trace(ONE) = 1, trace(D) = 0. -/
theorem test_trace : (after (load [(0, oneV)]) 0x0A000000).result = 1 ∧
    (after (load [(0, fixD)]) 0x0A000000).result = 0 := by decide +kernel

/-- A8, by hand: the complement of D in 293 bits. -/
theorem test_add : elemWord ((after (load [(0, fixD), (1, oneV)]) 0x10201000).elem 2) 0 = 0x21524110 := by decide +kernel

/-- A10: the destination is both sources. -/
theorem test_add_self : (after (load [(1, fixX)]) 0x10111000).elem 1 = 0 := by decide +kernel

/-- Q3: position 292 wraps to position 0. -/
theorem test_sqr_wrap : (after (load [(0, fixH)]) 0x11100000).elem 1 = low 1 := by decide +kernel

/-- R151's example: the carry from word 0 to word 1. -/
theorem test_sqr_carry : (after (load [(1, fixD)]) 0x11210000).elem 2 = elemOfWords [0xBD5B7DDE, 1] := by decide +kernel

/-- M2, by hand from the listing of R167. -/
theorem test_mul_basis :
    (after (load [(0, low 1), (1, low 2)]) 0x12201000).elem 2 = elemOfWords [1, 0, 0, 0, 0, 0x02000000] := by
  decide +kernel

/-- M6: the first word of D times X, on a first use that builds the table. -/
theorem test_mul_first_use :
    elemWord ((after (load [(0, fixD), (1, fixX)]) 0x12201000).elem 2) 0 = 0xf495c721 ∧
    (after (load [(0, fixD), (1, fixX)]) 0x12201000).tblReady = true := by decide +kernel

/-- W2: 0 to the power 0 is 1, and the table is not built (R196). -/
theorem test_pow_zero : (after State.reset 0x13201000).elem 2 = oneV ∧
    (after State.reset 0x13201000).tblReady = false := by decide +kernel

/-- W6: the first word of D cubed. -/
theorem test_pow_cube : elemWord ((after (load [(0, fixD), (1, low 3)]) 0x13201000).elem 2) 0 = 0xa39b9910 := by
  decide +kernel

/-- I1: zero maps to zero and the outcome is OK. -/
theorem test_inv_zero : (after (load [(1, fixD)]) 0x14100000).elem 1 = 0 ∧
    (after (load [(1, fixD)]) 0x14100000).err = .ok := by decide +kernel

/-- R225's example: TXT[290..293] after TOBIN of 5, and RESULT. -/
theorem test_tobin : memReadBytes (after (load [(0, low 5)]) 0x20000126).txt 289 5 = [0x30, 0x31, 0x30, 0x31, 0x00] ∧
    (after (load [(0, low 5)]) 0x20000126).result = 293 := by decide +kernel

/-- T12: a capacity of 293 is too small, and nothing is written. -/
theorem test_tobin_small : (after (load [(0, fixD)]) 0x20000125).err = .bufferTooSmall ∧
    (after (load [(0, fixD)]) 0x20000125).txt = [] := by decide +kernel

/-- F16: "1" and 292 times "0" is position 292. -/
theorem test_frombin :
    (after { State.reset with txt := (List.range 293).map fun k => (k, if k = 0 then 0x31 else 0x30) } 0x21000000).elem 0 =
      fixH := by decide +kernel

/-- F19: a 294th character where the terminator belongs. -/
theorem test_frombin_long (l : List (Reg × Elem)) : parseBin (withText (List.replicate 294 0x31) l).txt = none := by
  have h : memRead (withText (List.replicate 294 0x31) l).txt Config.binLength = 0x31 := by
    rw [memRead_replicate, if_pos (by decide)]
  rw [parseBin, h, if_neg]
  rw [Bool.and_eq_true]
  exact fun e => absurd e.2 (by decide)

/-- R235's example: the text "deadbeef", RESULT = 8. -/
theorem test_tohex : memReadBytes (after (load [(0, fixD)]) 0x2200004B).txt 0 9 =
      [0x64, 0x65, 0x61, 0x64, 0x62, 0x65, 0x65, 0x66, 0x00] ∧
    (after (load [(0, fixD)]) 0x2200004B).result = 8 := by decide +kernel

/-- X8: NonCanonical outranks BufferTooSmall (R268). -/
theorem test_tohex_priority : (after (load [(1, excess)]) 0x2201004A).err = .nonCanonical := by decide +kernel

/-- F7: "3" and 73 times "0": position 293 is dropped. -/
theorem test_fromhex_drop : (after (withText (0x33 :: List.replicate 73 0x30) []) 0x23000000).elem 0 = fixH := by
  decide +kernel

/-- F10: the length is checked before the digits. -/
theorem test_fromhex_long :
    (after (withText (List.replicate 80 0x67) []) 0x23000000).err = .overflow := by decide +kernel

-- The host port and reset

/-- H1, H2, H5: misaligned, write-only and unmapped reads answer 0 and set HERR. -/
theorem test_read_errors : (afterEvent State.reset (.read 0x102)).herr = true ∧
    (afterEvent State.reset (.read 0x000)).herr = true ∧ (afterEvent State.reset (.read 0x128)).herr = true ∧
    (afterEvent State.reset (.read 0x128)).replies = [0] := by decide +kernel

/-- H7 and H8: word 9 stored raw; the last word of E7. -/
theorem test_write_word : elemWord ((afterEvent State.reset (.write 0x124 0xFFFFFFFF)).elem 0) 9 = 0xFFFFFFFF ∧
    elemWord ((afterEvent State.reset (.write 0x2E4 7)).elem 7) 9 = 7 := by decide +kernel

/-- H9: the string "1f" packed into one word. -/
theorem test_write_text : memReadBytes (afterEvent State.reset (.write 0x400 0x00006631)).txt 0 4 =
    [0x31, 0x66, 0x00, 0x00] := by decide +kernel

/-- H11 and H12: while BUSY = 1 only STATUS can be read. -/
theorem test_busy_reads : (afterEvent (State.reset.accept 0x01000000) (.read 0x004)).replies = [1] ∧
    (afterEvent (State.reset.accept 0x01000000) (.read 0x004)).herr = false ∧
    (afterEvent (State.reset.accept 0x01000000) (.read 0x008)).herr = true ∧
    (afterEvent (State.reset.accept 0x01000000) (.write 0x100 1)).regs = State.reset.regs := by decide +kernel

/-- R302: a reset while BUSY = 1 abandons the command and clears HERR and the table's ready bit. -/
theorem test_reset_event :
    (afterEvent { State.reset with busy := true, herr := true, tblReady := true }
      (.reset { regs := Vector.replicate 8 excess, txt := [(3, 0x41), (600, 0x42)], pend := 0, tbl := [] })) =
      { State.reset with regs := Vector.replicate 8 excess, txt := [(3, 0x41)] } := by decide +kernel

-- Witnesses: for each statement with hypotheses, a state and operands that meet them

/-- FATAL set, as no run sets it. -/
def fatalState : State := { State.reset with fatal := true }

/-- Every register non-canonical. -/
def rawState : State := { State.reset with regs := Vector.replicate 8 excess }

theorem witness_DecodeEncodeRoundTrip : (Instr.tobin 7 512).wf = true ∧ (Instr.add 7 7 7).wf = true := by decide

theorem witness_LegalWordIsItsEncoding : decode 0x20070200 = .ok (.tobin 7 512) := by decide

theorem witness_MatchAndMaskSelect :
    (0x20, 0xFFF8FC00, true) ∈ encodingRows ∧ (0x20070200 &&& 0xFFF8FC00 : Word) = rowMatch 0x20 ∧
    (capField 0x20070200).toNat ≤ 512 ∧ ∀ row ∈ encodingRows, (0x05000000 : Word) &&& row.2.1 ≠ rowMatch row.1 :=
  ⟨by simp [encodingRows], by decide, by decide, by simp [encodingRows, rowMatch]⟩

theorem witness_StepRunsDecodedCommand :
    (State.reset.accept 0x01300000).busy = true ∧
    (State.reset.accept 0x01300000).atCoreTurn (State.reset.accept 0x01300000) ∧
    (placeCommand State.reset 0x01300000).atCoreTurn (State.reset.accept 0x01300000) ∧
    decode (State.reset.accept 0x01300000).pend = .ok (.zero 3) :=
  ⟨rfl, .inl ⟨rfl, rfl⟩, .inr ⟨[], rfl, rfl⟩, by decide⟩

theorem witness_HostIssuedCommandRuns :
    (Instr.tobin 0 512).wf = true ∧ State.reset.busy = false ∧
    (State.reset.setStream [.write 0x000 (encode (.tobin 0 512)), .coreTurn]).hostIn =
      .write 0x000 (encode (.tobin 0 512)) :: .coreTurn :: [] := by decide

theorem witness_IllegalWordOnlySetsErr :
    (State.reset.accept 0).busy = true ∧ (State.reset.accept 0).fatal = false ∧
    (State.reset.accept 0).atCoreTurn (State.reset.accept 0) ∧
    decode (State.reset.accept 0).pend = .error .reservedOpcode :=
  ⟨rfl, rfl, .inl ⟨rfl, rfl⟩, by decide⟩

theorem witness_FatalEndsEveryCommand :
    (fatalState.accept 0).busy = true ∧ (fatalState.accept 0).fatal = true ∧
    (fatalState.accept 0).atCoreTurn (fatalState.accept 0) ∧ (∀ d es, fatalState.hostIn ≠ .reset d :: es) ∧
    ∃ t, step fatalState = .next t :=
  ⟨rfl, rfl, .inl ⟨rfl, rfl⟩, by simp [fatalState, State.reset], answers_next (by decide)⟩

theorem witness_StepKeepsInv : State.reset.Inv ∧ ∃ t, step State.reset = .next t := ⟨by decide, _, rfl⟩

theorem witness_NonCanonicalOrigins :
    (∀ rd rs1, Instr.zero 0 ≠ .mov rd rs1) ∧ (∃ t, exec (.zero 0) State.reset = .next t) ∧
    (∃ t, step (State.reset.setStream [.write 0x124 0x20]) = .next t ∧ isCanonical (t.elem 0) = false) ∧
    (∃ t, step (State.reset.setStream [.reset { regs := rawState.regs, txt := [], pend := 0, tbl := [] }]) = .next t ∧
      isCanonical (t.elem 0) = false) ∧
    (∃ t, step ((load [(1, excess)]).accept 0x03010000) = .next t ∧ isCanonical (t.elem 0) = false) ∧
    isCanonical (State.reset.elem 0) = true ∧ isCanonical ((load [(1, excess)]).elem 0) = true :=
  ⟨by simp, answers_next (by decide), exists_next _ (by decide +kernel), exists_next _ (by decide +kernel),
    exists_next _ (by decide +kernel), by decide +kernel, by decide +kernel⟩

theorem witness_FailureWritesOnlyOutcome :
    (∃ t, exec (.iszero 0) rawState = .next t ∧ t.err ≠ .ok) ∧ (∃ t, runPending State.reset = .next t ∧ t.err ≠ .ok) :=
  ⟨exists_next _ (by decide +kernel), exists_next _ (by decide +kernel)⟩

theorem witness_OutcomesOfEachCommand :
    (Instr.tohex 0 0).wf = true ∧ State.reset.fatal = false ∧ ∃ t, exec (.tohex 0 0) State.reset = .next t :=
  ⟨by decide, rfl, answers_next (by decide +kernel)⟩

/-- 0x128 follows word 9 of E0; 0x600 follows TXT (R54). -/
theorem gap_offsets (r : Reg) (k : WordIdx) (j : Nat) (hj : j < 128) :
    ((0x128 : Offset).toNat ≠ 0x100 + 0x40 * r.val + 4 * k.val ∧ (0x128 : Offset).toNat ≠ 0x400 + 4 * j) ∧
    ((0x600 : Offset).toNat ≠ 0x100 + 0x40 * r.val + 4 * k.val ∧ (0x600 : Offset).toNat ≠ 0x400 + 4 * j) ∧
    ((0x004 : Offset).toNat ≠ 0x100 + 0x40 * r.val + 4 * k.val ∧ (0x004 : Offset).toNat ≠ 0x400 + 4 * j) := by
  refine ⟨⟨?_, ?_⟩, ⟨?_, ?_⟩, ⟨?_, ?_⟩⟩ <;> (have := r.isLt; have := k.isLt) <;> simp <;> omega

theorem witness_HostReadFollowsMap :
    (State.reset.setStream [.read 0x5FC]).hostIn = .read 0x5FC :: [] ∧ (0x5FC : Offset).toNat = 0x400 + 4 * 127 ∧
    (0x2E4 : Offset).toNat = 0x100 + 0x40 * (7 : Reg).val + 4 * (9 : WordIdx).val ∧ (0x102 : Offset).toNat % 4 ≠ 0 ∧
    (0x004 : Offset).toNat = 0x004 ∧ (0x008 : Offset).toNat = 0x008 ∧ (0x600 : Offset).toNat ≠ 0x004 ∧
    (0x600 : Offset).toNat ≠ 0x008 ∧ State.reset.busy = false ∧ (State.reset.accept 0).busy = true := by decide

theorem witness_HostWriteFollowsMap :
    Memory.wf State.reset.txt ∧ (State.reset.setStream [.write 0x000 1]).hostIn = .write 0x000 1 :: [] ∧
    (0x003 : Offset).toNat % 4 ≠ 0 ∧ State.reset.busy = false ∧ (State.reset.accept 0).busy = true ∧
    (0x000 : Offset).toNat = 0x000 ∧ (0x004 : Offset).toNat ≠ 0x000 ∧
    (0x124 : Offset).toNat = 0x100 + 0x40 * (0 : Reg).val + 4 * (9 : WordIdx).val ∧
    (0x400 : Offset).toNat = 0x400 + 4 * 0 ∧ (0x5FC : Offset).toNat = 0x400 + 4 * 127 := by decide

theorem witness_HerrStaysAndStopsNothing :
    State.reset.protocolError.herr = true ∧ (∀ d es, State.reset.protocolError.hostIn ≠ .reset d :: es) ∧
    (∃ t, step State.reset.protocolError = .next t) ∧ ∃ t, exec (.zero 0) State.reset = .next t :=
  ⟨rfl, by simp [State.protocolError, State.reset], answers_next (by decide), answers_next (by decide)⟩

theorem witness_ErrWrittenAtCompletion :
    (∃ t, step (State.reset.accept 0) = .next t ∧ t.err ≠ (State.reset.accept 0).err) ∧
    ∃ t, step ((State.reset.complete .overflow).setStream
      [.reset { regs := rawState.regs, txt := [], pend := 0, tbl := [] }]) = .next t ∧ t.err ≠ .overflow :=
  ⟨exists_next _ (by decide +kernel), exists_next _ (by decide +kernel)⟩

theorem witness_WriteThenReadBack :
    Memory.wf State.reset.txt ∧ State.reset.busy = false ∧
    (State.reset.setStream [.write 0x2E4 5, .read 0x2E4]).hostIn = .write 0x2E4 5 :: .read 0x2E4 :: [] ∧
    (∃ (r : Reg) (k : WordIdx), (0x2E4 : Offset).toNat = 0x100 + 0x40 * r.val + 4 * k.val) ∧
    ∃ j < 128, (0x5FC : Offset).toNat = 0x400 + 4 * j :=
  ⟨by decide, rfl, rfl, ⟨7, 9, rfl⟩, 127, by decide, rfl⟩

theorem witness_BusyFalls : (State.reset.accept 0).busy = true := rfl

theorem witness_ResetLeavesTheRestOpen :
    (State.reset.setStream [.reset { regs := rawState.regs, txt := [], pend := 0, tbl := [] }]).hostIn =
      .reset { regs := rawState.regs, txt := [], pend := 0, tbl := [] } :: [] := rfl

theorem witness_TableHiddenFromHost :
    State.reset.Inv ∧ { State.reset with tbl := table, tblReady := true }.Inv ∧
    State.reset.sameToHost { State.reset with tbl := table, tblReady := true } := 
  ⟨by decide, ⟨by decide, rfl, fun _ => rfl⟩, rfl⟩

theorem witness_ZeroCommand : State.reset.fatal = false ∧ fatalState.fatal = true := by decide

theorem witness_OneCommand : State.reset.fatal = false ∧ fatalState.fatal = true := by decide

theorem witness_MovCommand : rawState.fatal = false ∧ fatalState.fatal = true := by decide

theorem witness_CanonCommand : rawState.fatal = false ∧ fatalState.fatal = true := by decide

theorem witness_IszeroCommand : State.reset.fatal = false ∧ isCanonical (State.reset.elem 7) = true ∧
    rawState.fatal = false ∧ isCanonical (rawState.elem 7) = false ∧ fatalState.fatal = true := by decide +kernel

theorem witness_IsoneCommand : (load [(0, oneV)]).fatal = false ∧ isCanonical ((load [(0, oneV)]).elem 0) = true ∧
    rawState.fatal = false ∧ isCanonical (rawState.elem 0) = false ∧ fatalState.fatal = true := by decide +kernel

theorem witness_TraceCommand : State.reset.fatal = false ∧ isCanonical (State.reset.elem 0) = true ∧
    rawState.fatal = false ∧ isCanonical (rawState.elem 0) = false ∧ fatalState.fatal = true := by decide +kernel

theorem witness_AddCommand : (load [(0, fixD), (1, oneV)]).fatal = false ∧
    isCanonical ((load [(0, fixD), (1, oneV)]).elem 0) = true ∧ isCanonical ((load [(0, fixD), (1, oneV)]).elem 1) = true ∧
    isCanonical ((load [(1, excess)]).elem 0) = true ∧ isCanonical ((load [(1, excess)]).elem 1) = false ∧
    fatalState.fatal = true := by decide +kernel

theorem witness_SqrCommand : (load [(0, fixH)]).fatal = false ∧ isCanonical ((load [(0, fixH)]).elem 0) = true ∧
    rawState.fatal = false ∧ isCanonical (rawState.elem 0) = false ∧ fatalState.fatal = true := by decide +kernel

theorem witness_MulCommand : (load [(0, fixD)]).fatal = false ∧ (load [(0, fixD)]).tblReady = false ∧
    isCanonical ((load [(0, fixD)]).elem 0) = true ∧ isCanonical ((load [(0, fixD)]).elem 1) = true ∧
    rawState.fatal = false ∧ isCanonical (rawState.elem 0) = false ∧ fatalState.fatal = true := by decide +kernel

theorem witness_PowCommand : (load [(0, fixD)]).fatal = false ∧ (load [(0, fixD)]).tblReady = false ∧
    isCanonical ((load [(0, fixD)]).elem 0) = true ∧ isCanonical ((load [(0, fixD)]).elem 1) = true ∧
    rawState.fatal = false ∧ isCanonical (rawState.elem 0) = false ∧ fatalState.fatal = true := by decide +kernel

theorem witness_InvCommand : (load [(0, fixD)]).fatal = false ∧ (load [(0, fixD)]).tblReady = false ∧
    isCanonical ((load [(0, fixD)]).elem 0) = true ∧ rawState.fatal = false ∧ isCanonical (rawState.elem 0) = false ∧
    fatalState.fatal = true := by decide +kernel

theorem witness_TobinCommand : Memory.wf State.reset.txt ∧ State.reset.fatal = false ∧
    isCanonical (State.reset.elem 0) = true ∧ 294 ≤ (294 : Cap).toNat ∧ (512 : Cap).toNat ≤ 512 ∧ (293 : Cap).toNat < 294 ∧
    512 < (513 : Cap).toNat ∧ Memory.wf rawState.txt ∧ isCanonical (rawState.elem 0) = false ∧ Memory.wf fatalState.txt ∧
    fatalState.fatal = true := by decide +kernel

theorem witness_FrombinCommand : (withText (List.replicate 293 0x31) []).fatal = false ∧
    (∀ k < 293, memRead (withText (List.replicate 293 0x31) []).txt k = 0x30 ∨
      memRead (withText (List.replicate 293 0x31) []).txt k = 0x31) ∧
    memRead (withText (List.replicate 293 0x31) []).txt 293 = 0x00 ∧
    memRead State.reset.txt 0 ≠ 0x30 ∧ memRead State.reset.txt 0 ≠ 0x31 ∧
    memRead (withText (List.replicate 294 0x31) []).txt 293 ≠ 0x00 ∧ fatalState.fatal = true :=
  ⟨rfl, fun k hk => .inr (by rw [memRead_replicate, if_pos hk]), by rw [memRead_replicate, if_neg (by decide)],
    by decide, by decide, by rw [memRead_replicate, if_pos (by decide)]; decide, rfl⟩

theorem witness_TohexCommand : Memory.wf State.reset.txt ∧ State.reset.fatal = false ∧
    isCanonical (State.reset.elem 0) = true ∧ 75 ≤ (75 : Cap).toNat ∧ (512 : Cap).toNat ≤ 512 ∧ (74 : Cap).toNat < 75 ∧
    512 < (513 : Cap).toNat ∧ Memory.wf rawState.txt ∧ isCanonical (rawState.elem 0) = false ∧ Memory.wf fatalState.txt ∧
    fatalState.fatal = true := by decide +kernel

theorem witness_FromhexCommand : (withText (List.replicate 74 0x66) []).fatal = false ∧
    memRead (withText (List.replicate 74 0x66) []).txt 74 = 0x00 ∧
    (∀ k < 74, hexVal (memRead (withText (List.replicate 74 0x66) []).txt k) = some 15) ∧
    (∀ k < 75, memRead (withText (List.replicate 75 0x30) []).txt k ≠ 0x00) ∧ memRead State.reset.txt 0 = 0x00 ∧
    memRead (withText [0x67] []).txt 1 = 0x00 ∧ (∀ k < 1, memRead (withText [0x67] []).txt k ≠ 0x00) ∧
    hexVal (memRead (withText [0x67] []).txt 0) = none ∧ fatalState.fatal = true :=
  ⟨rfl, by rw [memRead_replicate, if_neg (by decide)], fun k hk => by rw [memRead_replicate, if_pos hk]; decide,
    fun k hk => by rw [memRead_replicate, if_pos hk]; decide, by decide, by decide, by decide, by decide, rfl⟩

theorem witness_BinaryRoundTrip : Memory.wf State.reset.txt ∧ State.reset.fatal = false ∧
    isCanonical (State.reset.elem 0) = true ∧ 294 ≤ (294 : Cap).toNat ∧ (294 : Cap).toNat ≤ 512 ∧
    Memory.wf (withText (List.replicate 293 0x31) []).txt :=
  ⟨by decide, rfl, by decide +kernel, by decide, by decide, wf_replicate 293 0x31 (by decide) (by decide) []⟩

/-- FROMBIN reads the text of 293 ones. -/
theorem ones_parse : (parseBin (withText (List.replicate 293 0x31) []).txt).isSome = true := by
  have h : ((memReadBytes (withText (List.replicate 293 0x31) []).txt 0 Config.binLength).all isBinChar &&
      memRead (withText (List.replicate 293 0x31) []).txt Config.binLength == Config.term) = true := by
    rw [memRead_replicate, Bool.and_eq_true, List.all_eq_true]
    refine ⟨fun b hb => ?_, rfl⟩
    obtain ⟨k, hk, rfl⟩ := List.mem_map.mp hb
    rw [memRead_replicate, if_pos (by simpa using hk)]
    rfl
  rw [parseBin, if_pos h]
  exact Option.isSome_some

/-- FROMBIN completes on a text it reads. -/
theorem frombin_completes (rd : Reg) (s : State) (hf : s.fatal = false) (h : (parseBin s.txt).isSome = true) :
    ∃ t, exec (.frombin rd) s = .next t ∧ t.err = .ok := by
  obtain ⟨z, hz⟩ := Option.isSome_iff_exists.mp h
  refine ⟨(s.setElem rd z).complete .ok, ?_, rfl⟩
  simp only [exec, execFrombin, hz]
  exact command_runs hf (by simp)

/-- The premises on `exec` in the round trips are met: TOBIN, FROMBIN and TOHEX answer a next state, FROMBIN with outcome OK. -/
theorem witness_BinaryRoundTrip_exec :
    (∃ t, exec (.tobin 0 294) State.reset = .next t) ∧
    ∃ t, exec (.frombin 0) (withText (List.replicate 293 0x31) []) = .next t ∧ t.err = .ok :=
  ⟨answers_next (by decide +kernel), frombin_completes _ _ rfl ones_parse⟩

theorem witness_HexRoundTrip : Memory.wf State.reset.txt ∧ State.reset.fatal = false ∧
    isCanonical (State.reset.elem 0) = true ∧ 75 ≤ (75 : Cap).toNat ∧ (75 : Cap).toNat ≤ 512 ∧
    ∃ t, exec (.tohex 0 75) State.reset = .next t :=
  ⟨by decide, rfl, by decide +kernel, by decide, by decide, answers_next (by decide +kernel)⟩

theorem witness_SqrIsRotation : isCanonical fixH = true := by decide +kernel

theorem witness_SqrLaws : isCanonical fixH = true ∧ isCanonical fixD = true ∧ sqr fixH = sqr fixH ∧ 292 < 293 := by
  decide +kernel

theorem witness_AdditionLaws : isCanonical fixD = true ∧ isCanonical fixX = true ∧ isCanonical oneV = true := by decide +kernel

theorem witness_MulCommutative : isCanonical fixD = true ∧ isCanonical fixX = true := by decide +kernel

theorem witness_MulDistributes : isCanonical fixD = true ∧ isCanonical fixX = true ∧ isCanonical oneV = true := by
  decide +kernel

theorem witness_MulAssociative : isCanonical fixD = true ∧ isCanonical fixX = true ∧ isCanonical fixH = true := by
  decide +kernel

theorem witness_MulOfEqualIsSqr : isCanonical fixD = true := by decide +kernel

theorem witness_MulByOne : isCanonical fixX = true := by decide +kernel

theorem witness_MulByZero : isCanonical oneV = true := by decide +kernel

theorem witness_PowCornerCases : isCanonical fixD = true ∧ isCanonical fixX = true ∧ 1 ≤ exponentValue fixX := by
  decide +kernel

theorem witness_PowFieldOrder : isCanonical fixX = true ∧ fixX ≠ zeroV ∧ isCanonical zeroV = true := by decide +kernel

theorem witness_InverseLaw : isCanonical fixD = true ∧ fixD ≠ zeroV := by decide +kernel

theorem witness_TraceLaws : isCanonical fixD = true ∧ isCanonical oneV = true := by decide +kernel

theorem witness_TableStructure : (292 : Pos) ≠ 0 := by decide

theorem witness_CanonicalForm : isCanonical fixD = true ∧ isCanonical excess = false := by decide +kernel

theorem witness_GetAndSetBit : (9 : WordIdx).val = (292 : Pos).val / 32 ∧ getBit fixH 292 = true ∧
    isCanonical fixH = true := by decide +kernel

/-- One busy state with an empty stream, one with a read and the core's turn to come. -/
theorem witness_CoreTurnComes :
    (State.reset.accept 0).busy = true ∧ (∀ d, HostEvent.reset d ∉ (State.reset.accept 0).hostIn) ∧
    ((State.reset.accept 0).setStream [.read 0x004, .coreTurn]).busy = true ∧
    ∀ d, HostEvent.reset d ∉ ((State.reset.accept 0).setStream [.read 0x004, .coreTurn]).hostIn := by
  simp [State.reset]

/-- R223 at the first and the last digit of each range and at the bytes beside them. -/
theorem witness_HexDigits :
    hexVal 0x2F = none ∧ hexVal 0x30 = some 0 ∧ hexVal 0x39 = some 9 ∧ hexVal 0x3A = none ∧
    hexVal 0x40 = none ∧ hexVal 0x41 = some 10 ∧ hexVal 0x46 = some 15 ∧ hexVal 0x47 = none ∧
    hexVal 0x60 = none ∧ hexVal 0x61 = some 10 ∧ hexVal 0x66 = some 15 ∧ hexVal 0x67 = none ∧
    hexChar true 9 = 0x39 ∧ hexChar false 10 = 0x61 ∧ hexChar true 10 = 0x41 ∧ hexChar false 15 = 0x66 ∧
    hexChar true 15 = 0x46 := by decide

end Sys2Proof.Tests
end

section
/-! PROOFS. What a command and a host transaction do to a register, and where a non-canonical register comes from (R23). -/

namespace Sys2Proof.Machine

-- The table's first use (R168)

@[simp] theorem prepareTable_elem (s : State) (used : Bool) (r : Reg) : (prepareTable s used).elem r = s.elem r := by
  rw [prepareTable_eq]
  split <;> rfl

@[simp] theorem prepareTable_txt (s : State) (used : Bool) : (prepareTable s used).txt = s.txt := by
  rw [prepareTable_eq]
  split <;> rfl

@[simp] theorem prepareTable_fatal (s : State) (used : Bool) : (prepareTable s used).fatal = s.fatal := by
  rw [prepareTable_eq]
  split <;> rfl

/-- A table that is ready after a first use is T, if it was before (R310). -/
theorem prepareTable_ready_tbl {s : State} (used : Bool) (h : s.tblReady = true → s.tbl = table) :
    (prepareTable s used).tblReady = true → (prepareTable s used).tbl = table := by
  rw [prepareTable_eq]
  split
  · exact fun _ => rfl
  · exact h

-- What a command answers, by field

/-- Every command answers a next state (R274). -/
theorem exec_answers_next (i : Instr) (s : State) : ∃ t, exec i s = .next t := by
  have h := exec_shape i s
  generalize exec i s = r at h ⊢
  cases h <;> exact ⟨_, rfl⟩

/-- Every command drops BUSY (R31). -/
theorem exec_busy {i : Instr} {s t : State} (h : exec i s = .next t) : t.busy = false := by
  have hs := exec_shape i s
  rw [h] at hs
  cases hs <;> rfl

/-- A command leaves a register as it was, writes a canonical value to it, or is a MOV to it (R23). -/
theorem exec_elem_cases {i : Instr} {s t : State} (h : exec i s = .next t) (r : Reg) :
    t.elem r = s.elem r ∨ isCanonical (t.elem r) = true ∨ ∃ rs1, i = .mov r rs1 ∧ t.elem r = s.elem rs1 := by
  have hs := exec_shape i s
  rw [h] at hs
  cases hs with
  | failed k hk => exact .inl rfl
  | element rd v hv =>
    simp only [State.elem_complete, State.elem_setElem]
    split
    · subst r
      rcases hv with hv | ⟨rs1, rfl, rfl⟩
      · exact .inr (.inl hv)
      · exact .inr (.inr ⟨rs1, rfl, rfl⟩)
    · exact .inl rfl
  | product rd used f hf =>
    simp only [State.elem_complete, State.elem_setElem, prepareTable_elem]
    split
    · exact .inr (.inl (hf _))
    · exact .inl rfl
  | answer b => exact .inl rfl
  | text str hlen => exact .inl rfl

-- What a host transaction does to one register

@[simp] theorem hostRead_elem (s : State) (off : Offset) (r : Reg) : (hostRead s off).elem r = s.elem r := by
  rcases hostRead_cases s off with ⟨d, _, e⟩ | ⟨_, e⟩ <;> rw [e] <;> rfl

/-- A write leaves a register as it was, or the offset is that of one of its words, which takes the data (R53, R56). -/
theorem hostWrite_elem_cases (s : State) (off : Offset) (d : Word) (r : Reg) :
    (hostWrite s off d).elem r = s.elem r ∨
    ∃ k : WordIdx, off.toNat = 0x100 + 0x40 * r.val + 4 * k.val ∧
      (hostWrite s off d).elem r = setElemWord (s.elem r) k d := by
  unfold hostWrite
  split
  · exact .inl rfl
  · rename_i hmis
    have h4 : off.toNat % 4 = 0 := by simpa [misaligned_eq] using hmis
    split
    · exact .inl rfl
    · rcases hostTarget_cases off h4 with ⟨e, _⟩ | ⟨e, _⟩ | ⟨e, _⟩ | ⟨q, k, e, hoff⟩ | ⟨j, e, _⟩ | e <;> rw [e]
      case inr.inr.inr.inl =>
        by_cases hq : q = r
        · subst hq
          exact .inr ⟨k, hoff, State.elem_setElem_self _ _ _⟩
        · exact .inl (State.elem_setElem_ne _ _ _ _ (Ne.symm hq))
      all_goals exact .inl rfl

/-- A word written to a canonical element keeps it canonical unless it is word 9 with one of bits 31 to 5 set (R23, R113). -/
theorem isCanonical_setElemWord {x : Elem} {k : WordIdx} {d : Word} (hx : isCanonical x = true)
    (hd : k.val = 9 → d.extractLsb' 5 27 = 0) : isCanonical (setElemWord x k d) = true := by
  rw [isCanonical_iff_excess] at hx ⊢
  intro n hn
  by_cases hlt : n < 320
  · rw [getLsbD_setElemWord _ _ _ _ hlt]
    split
    · have hbit := congrArg (fun w => w.getLsbD (n % 32 - 5)) (hd (by omega))
      simpa [show n % 32 - 5 < 27 by omega, show 5 + (n % 32 - 5) = n % 32 by omega] using hbit
    · exact hx n hn
  · exact BitVec.getLsbD_of_ge _ _ (by omega)

/-- A register that a write turns non-canonical had its word 9 written with one of bits 31 to 5 set (R23). -/
theorem hostWrite_nonCanonical {s : State} {off : Offset} {d : Word} {r : Reg} (hs : isCanonical (s.elem r) = true)
    (ht : isCanonical ((hostWrite s off d).elem r) = false) :
    off.toNat = 0x100 + 0x40 * r.val + 4 * 9 ∧ d.extractLsb' 5 27 ≠ 0 := by
  rcases hostWrite_elem_cases s off d r with e | ⟨k, hoff, e⟩
  · rw [e, hs] at ht
    contradiction
  · rw [e] at ht
    by_cases hk : k.val = 9 ∧ d.extractLsb' 5 27 ≠ 0
    · exact ⟨hk.1 ▸ hoff, hk.2⟩
    · have hcan : isCanonical (setElemWord (s.elem r) k d) = true :=
        isCanonical_setElemWord hs fun h9 => by
          by_contra hne
          exact hk ⟨h9, hne⟩
      rw [hcan] at ht
      contradiction

/-- A register that the core's turn turns non-canonical is the destination of a pending MOV from such a register (R23). -/
theorem coreTurn_nonCanonical {s t : State} {r : Reg} (h : coreTurn s = .next t) (hs : isCanonical (s.elem r) = true)
    (ht : isCanonical (t.elem r) = false) :
    s.busy = true ∧ ∃ rs1, decode s.pend = .ok (.mov r rs1) ∧ isCanonical (s.elem rs1) = false := by
  have hne : t.elem r ≠ s.elem r := fun e => by simp [e, hs] at ht
  rcases coreTurn_cases s with ⟨_, e⟩ | ⟨hb, i, hi, e⟩ | ⟨_, _, e⟩ <;> rw [e] at h
  · cases h
    exact absurd rfl hne
  · rcases exec_elem_cases h r with hsame | hcan | ⟨rs1, rfl, hmov⟩
    · exact absurd hsame hne
    · simp [hcan] at ht
    · exact ⟨hb, rs1, hi, hmov ▸ ht⟩
  · cases h
    exact absurd rfl hne

/-- Settles O12: the answers of `exec` have five shapes, and a step is one event of the host or the core's turn; each is one of the lemmas above. -/
theorem nonCanonicalOrigins : Obligations.NonCanonicalOrigins := by
  refine ⟨fun i s t hmov h r => ?_, fun s t r h hs ht => ?_⟩
  · rcases exec_elem_cases h r with e | e | ⟨rs1, e, _⟩
    · exact .inl e
    · exact .inr e
    · exact absurd e (hmov r rs1)
  · rcases step_cases s with ⟨_, e⟩ | ⟨ev, es, hin, e⟩ <;> rw [e] at h
    · exact .inr (.inr (coreTurn_nonCanonical h hs ht))
    · cases ev with
      | read off =>
        cases h
        simp [hs] at ht
      | write off d =>
        cases h
        obtain ⟨hoff, hd⟩ := hostWrite_nonCanonical (s := s.setStream es) hs ht
        exact .inr (.inl ⟨off, d, es, hin, hoff, hd⟩)
      | coreTurn => exact .inr (.inr (coreTurn_nonCanonical (s := s.setStream es) h hs ht))
      | reset draw => exact .inl ⟨draw, es, hin⟩

end Sys2Proof.Machine
end

section
/-! PROOFS. What every step keeps, and that the table is hidden (R35, R166, R310). -/

namespace Sys2Proof.Machine

-- The invariant

/-- Every command keeps the invariant. -/
theorem exec_keeps_inv {i : Instr} {s t : State} (hinv : s.Inv) (h : exec i s = .next t) : t.Inv := by
  obtain ⟨htxt, hfatal, htbl⟩ := hinv
  have hs := exec_shape i s
  rw [h] at hs
  cases hs with
  | failed k hk => exact ⟨htxt, hfatal, htbl⟩
  | element rd v hv => exact ⟨htxt, hfatal, htbl⟩
  | product rd used f hf =>
    exact ⟨by simpa using htxt, by simpa using hfatal, prepareTable_ready_tbl used htbl⟩
  | answer b => exact ⟨htxt, hfatal, htbl⟩
  | text str hlen => exact ⟨Memory.wf_setText (by omega) htxt, hfatal, htbl⟩

theorem coreTurn_keeps_inv {s t : State} (hinv : s.Inv) (h : coreTurn s = .next t) : t.Inv := by
  rcases coreTurn_cases s with ⟨_, e⟩ | ⟨_, i, _, e⟩ | ⟨_, _, e⟩ <;> rw [e] at h
  · cases h
    exact hinv
  · exact exec_keeps_inv hinv h
  · cases h
    exact hinv

theorem hostRead_keeps_inv {s : State} (off : Offset) (hinv : s.Inv) : (hostRead s off).Inv := by
  rcases hostRead_cases s off with ⟨d, _, e⟩ | ⟨_, e⟩ <;> rw [e] <;> exact hinv

theorem hostWrite_keeps_inv {s : State} (off : Offset) (d : Word) (hinv : s.Inv) : (hostWrite s off d).Inv := by
  rcases hostWrite_cases s off d with e | ⟨_, e | ⟨r, k, e⟩ | ⟨j, e⟩⟩ <;> rw [e]
  case inr.inr.inr => exact ⟨Memory.wf_setTxtWord j d hinv.1, hinv.2⟩
  all_goals exact hinv

/-- A reset event establishes the invariant, whatever it draws (R39, R301). -/
theorem hostReset_inv (s : State) (draw : ResetDraw) : (hostReset s draw).Inv :=
  ⟨Memory.wf_memOfCells draw.txt, rfl, nofun⟩

/-- Every step keeps the invariant (R166, R310). -/
theorem step_keeps_inv {s t : State} (hinv : s.Inv) (h : step s = .next t) : t.Inv := by
  rcases step_cases s with ⟨_, e⟩ | ⟨ev, es, _, e⟩ <;> rw [e] at h
  · exact coreTurn_keeps_inv hinv h
  · have hinv' : (s.setStream es).Inv := hinv
    cases ev with
    | read off => cases h; exact hostRead_keeps_inv off hinv'
    | write off d => cases h; exact hostWrite_keeps_inv off d hinv'
    | coreTurn => exact coreTurn_keeps_inv hinv' h
    | reset draw => cases h; exact hostReset_inv _ draw

-- Two states that differ only in the hidden table

/-- The state with another table store and ready bit: what the host cannot tell from `s` (R35). -/
def State.withTable (s : State) (tbl : List Pair) (ready : Bool) : State := { s with tbl := tbl, tblReady := ready }

@[simp] theorem State.withTable_txt (s : State) (tbl : List Pair) (ready : Bool) :
    (s.withTable tbl ready).txt = s.txt := rfl

@[simp] theorem State.withTable_busy (s : State) (tbl : List Pair) (ready : Bool) :
    (s.withTable tbl ready).busy = s.busy := rfl

@[simp] theorem State.withTable_pend (s : State) (tbl : List Pair) (ready : Bool) :
    (s.withTable tbl ready).pend = s.pend := rfl

@[simp] theorem State.withTable_hostIn (s : State) (tbl : List Pair) (ready : Bool) :
    (s.withTable tbl ready).hostIn = s.hostIn := rfl

theorem State.sameToHost_withTable (s : State) (tbl : List Pair) (ready : Bool) :
    s.sameToHost (s.withTable tbl ready) := rfl

/-- The states that the host cannot tell from `s` are `s` with another table. -/
theorem State.sameToHost_iff {s t : State} : s.sameToHost t ↔ ∃ tbl ready, t = s.withTable tbl ready :=
  ⟨fun h => ⟨t.tbl, t.tblReady, h.symm⟩, fun ⟨_, _, h⟩ => h ▸ s.sameToHost_withTable _ _⟩

/-- A table that is ready is T (R310). -/
def State.TableSound (s : State) : Prop := s.tblReady = true → s.tbl = table

theorem State.tableSound_of_inv {s : State} (h : s.Inv) : s.TableSound := h.2.2

/-- Two answers that the host cannot tell apart. -/
def sameAnswer (r r' : Result) : Prop := ∃ t t', r = .next t ∧ r' = .next t' ∧ t.sameToHost t'

theorem sameAnswer_next {t : State} (tbl : List Pair) (ready : Bool) :
    sameAnswer (.next t) (.next (t.withTable tbl ready)) :=
  ⟨t, _, rfl, rfl, t.sameToHost_withTable tbl ready⟩

theorem sameAnswer_ite {c : Prop} [Decidable c] {a a' b b' : Result} (ht : c → sameAnswer a a')
    (hf : ¬ c → sameAnswer b b') : sameAnswer (if c then a else b) (if c then a' else b') := by
  by_cases h : c
  · simpa only [if_pos h] using ht h
  · simpa only [if_neg h] using hf h

theorem hostRead_withTable (s : State) (tbl : List Pair) (ready : Bool) (off : Offset) :
    hostRead (s.withTable tbl ready) off = (hostRead s off).withTable tbl ready := by
  have hval : hostReadValue (s.withTable tbl ready) off = hostReadValue s off := rfl
  unfold hostRead
  rw [hval]
  split <;> rfl

theorem hostWrite_withTable (s : State) (tbl : List Pair) (ready : Bool) (off : Offset) (d : Word) :
    hostWrite (s.withTable tbl ready) off d = (hostWrite s off d).withTable tbl ready := by
  unfold hostWrite
  rw [State.withTable_busy]
  split
  · rfl
  · split
    · rfl
    · split <;> rfl

theorem writeString_withTable (s : State) (tbl : List Pair) (ready : Bool) (str : List Byte) :
    sameAnswer (writeString s str) (writeString (s.withTable tbl ready) str) := sameAnswer_next tbl ready

/-- The checks before a command's own rule read nothing of the table (R84). -/
theorem command_withTable {s : State} {tbl : List Pair} {ready legal : Bool} {srcs : List Reg} {body body' : Result}
    (h : s.fatal = false → sameAnswer body body') :
    sameAnswer (command s legal srcs body) (command (s.withTable tbl ready) legal srcs body') :=
  sameAnswer_ite (fun _ => sameAnswer_next tbl ready) fun hf =>
    sameAnswer_ite (fun _ => sameAnswer_next tbl ready) fun _ =>
      sameAnswer_ite (fun _ => h (by simpa using hf)) fun _ => sameAnswer_next tbl ready

/-- After a first use the two states still differ only in the table. -/
theorem prepareTable_withTable (s : State) (tbl : List Pair) (ready used : Bool) :
    s.sameToHost (prepareTable (s.withTable tbl ready) used) ∧ s.sameToHost (prepareTable s used) := by
  rw [prepareTable_eq, prepareTable_eq]
  constructor <;> split <;> rfl

/-- A product computed with T in both states, or one that needs no table, is the same in both (R168, R310). -/
theorem writeWithTable_withTable {s : State} {tbl : List Pair} {ready used : Bool} {rd : Reg} {f : List Pair → Elem}
    (hf : s.fatal = false) (hs : s.TableSound) (ht : (s.withTable tbl ready).TableSound)
    (hused : used = false → ∀ l l', f l = f l') :
    sameAnswer (writeWithTable s used rd f) (writeWithTable (s.withTable tbl ready) used rd f) := by
  have hv : f (prepareTable (s.withTable tbl ready) used).tbl = f (prepareTable s used).tbl := by
    cases used with
    | false => exact hused rfl _ _
    | true => rw [prepareTable_tbl hs rfl, prepareTable_tbl ht rfl]
  obtain ⟨ht', hs'⟩ := prepareTable_withTable s tbl ready used
  obtain ⟨l, b, e⟩ := State.sameToHost_iff.mp hs'
  obtain ⟨l', b', e'⟩ := State.sameToHost_iff.mp ht'
  rw [writeWithTable_eq hf, writeWithTable_eq (s := s.withTable tbl ready) hf, hv, e, e']
  exact ⟨_, _, rfl, rfl, rfl⟩

/-- The exponent scan never multiplies when no position of the exponent is set (R196). -/
theorem powerLoop_zeroV (tbl tbl' : List Pair) (g : Elem) (n : Nat) (r : Elem) :
    powerLoop tbl g zeroV n r = powerLoop tbl' g zeroV n r := by
  induction n generalizing r with
  | zero => rfl
  | succ n ih =>
    have hbit : zeroV.getLsbD n = false := by simp [zeroV]
    simp only [powerLoop, hbit, Bool.false_eq_true, if_false]
    exact ih _

theorem power_zeroV (tbl tbl' : List Pair) (g : Elem) : power tbl g zeroV = power tbl' g zeroV :=
  powerLoop_zeroV _ _ _ _ _

theorem invert_zeroV (tbl : List Pair) : invert tbl zeroV = zeroV := if_pos rfl

/-- A command run in two sound states that differ only in the table gives two such states (R35). -/
theorem exec_withTable (i : Instr) {s : State} {tbl : List Pair} {ready : Bool} (hs : s.TableSound)
    (ht : (s.withTable tbl ready).TableSound) : sameAnswer (exec i s) (exec i (s.withTable tbl ready)) := by
  cases i with
  | zero rd => exact command_withTable fun _ => sameAnswer_next tbl ready
  | one rd => exact command_withTable fun _ => sameAnswer_next tbl ready
  | mov rd rs1 => exact command_withTable fun _ => sameAnswer_next tbl ready
  | canon rd rs1 => exact command_withTable fun _ => sameAnswer_next tbl ready
  | iszero rs1 => exact command_withTable fun _ => sameAnswer_next tbl ready
  | isone rs1 => exact command_withTable fun _ => sameAnswer_next tbl ready
  | trace rs1 => exact command_withTable fun _ => sameAnswer_next tbl ready
  | add rd rs1 rs2 => exact command_withTable fun _ => sameAnswer_next tbl ready
  | sqr rd rs1 => exact command_withTable fun _ => sameAnswer_next tbl ready
  | mul rd rs1 rs2 => exact command_withTable fun hf => writeWithTable_withTable hf hs ht nofun
  | pow rd rs1 rs2 =>
    refine command_withTable fun hf => writeWithTable_withTable hf hs ht fun hz l l' => ?_
    rw [bne_eq_false_iff_eq.mp hz]
    exact power_zeroV l l' _
  | inv rd rs1 =>
    refine command_withTable fun hf => writeWithTable_withTable hf hs ht fun hz l l' => ?_
    rw [bne_eq_false_iff_eq.mp hz, invert_zeroV, invert_zeroV]
  | tobin rs1 cap =>
    exact command_withTable fun _ =>
      sameAnswer_ite (fun _ => sameAnswer_next tbl ready) fun _ => writeString_withTable _ _ _ _
  | frombin rd =>
    refine command_withTable fun _ => ?_
    rw [State.withTable_txt]
    cases parseBin s.txt <;> exact sameAnswer_next tbl ready
  | tohex rs1 cap =>
    exact command_withTable fun _ =>
      sameAnswer_ite (fun _ => sameAnswer_next tbl ready) fun _ => writeString_withTable _ _ _ _
  | fromhex rd =>
    refine command_withTable fun _ => ?_
    rw [State.withTable_txt]
    cases parseHex s.txt <;> exact sameAnswer_next tbl ready

/-- The core's turn in two sound states that differ only in the table gives two such states. -/
theorem coreTurn_withTable {s : State} {tbl : List Pair} {ready : Bool} (hs : s.TableSound)
    (ht : (s.withTable tbl ready).TableSound) : sameAnswer (coreTurn s) (coreTurn (s.withTable tbl ready)) := by
  unfold coreTurn runPending
  rw [State.withTable_busy, State.withTable_pend]
  split
  · split
    · exact exec_withTable _ hs ht
    · exact command_withTable fun _ => sameAnswer_next tbl ready
  · exact sameAnswer_next tbl ready

/-- A step from two sound states that the host cannot tell apart gives two such states (R35). -/
theorem step_sameToHost {s t : State} (hs : s.TableSound) (ht : t.TableSound) (h : s.sameToHost t) :
    sameAnswer (step s) (step t) := by
  obtain ⟨tbl, ready, rfl⟩ := State.sameToHost_iff.mp h
  unfold step
  rw [State.withTable_hostIn]
  split
  · exact coreTurn_withTable hs ht
  · rename_i ev es _
    change sameAnswer _ (takeEvent ((s.setStream es).withTable tbl ready) ev)
    cases ev with
    | read off =>
      simp only [takeEvent, hostRead_withTable]
      exact sameAnswer_next tbl ready
    | write off d =>
      simp only [takeEvent, hostWrite_withTable]
      exact sameAnswer_next tbl ready
    | coreTurn => exact coreTurn_withTable hs ht
    | reset draw => exact ⟨_, _, rfl, rfl, rfl⟩

/-- Settles O23, by induction on the number of steps: a step keeps the invariant of both states and that they differ only in the table. -/
theorem tableHiddenFromHost : Obligations.TableHiddenFromHost := by
  intro s t k hs ht h
  induction k generalizing s t with
  | zero => exact ⟨s, t, rfl, rfl, h⟩
  | succ k ih =>
    obtain ⟨s', t', es, et, h'⟩ := step_sameToHost (State.tableSound_of_inv hs) (State.tableSound_of_inv ht) h
    obtain ⟨u, v, hu, hv, huv⟩ := ih s' t' (step_keeps_inv hs es) (step_keeps_inv ht et) h'
    exact ⟨u, v, (State.runsTo_succ es k u).mpr hu, (State.runsTo_succ et k v).mpr hv, huv⟩

end Sys2Proof.Machine
end

section
/-! PROOFS. The core's turn, completion and failure, fairness, reset and STATUS (R26, R31, R39, R266). -/

namespace Sys2Proof

-- A legal command is read back from its word, format by format (R82, R90)

theorem decodeD_packWord (k : Reg → Instr) (opc : BitVec 8) (d : Reg) : decodeD k (packWord opc d 0 0 0) = .ok (k d) := by
  simp [decodeD, rdField_packWord, rs1Field_packWord, rs2Field_packWord, immField_packWord, readReg_ofNat]

theorem decodeDS_packWord (k : Reg → Reg → Instr) (opc : BitVec 8) (d a : Reg) :
    decodeDS k (packWord opc d a 0 0) = .ok (k d a) := by
  simp [decodeDS, rdField_packWord, rs1Field_packWord, rs2Field_packWord, immField_packWord, readReg_ofNat, a.isLt]

theorem decodeDSS_packWord (k : Reg → Reg → Reg → Instr) (opc : BitVec 8) (d a b : Reg) :
    decodeDSS k (packWord opc d a b 0) = .ok (k d a b) := by
  simp [decodeDSS, rdField_packWord, rs1Field_packWord, rs2Field_packWord, immField_packWord, readReg_ofNat, a.isLt, b.isLt]

theorem decodeS_packWord (k : Reg → Instr) (opc : BitVec 8) (a : Reg) : decodeS k (packWord opc 0 a 0 0) = .ok (k a) := by
  simp [decodeS, rdField_packWord, rs1Field_packWord, rs2Field_packWord, immField_packWord, readReg_ofNat, a.isLt]

theorem decodeSC_packWord (k : Reg → Cap → Instr) (opc : BitVec 8) (a : Reg) {cap : Cap} (hcap : capLegal cap = true) :
    decodeSC k (packWord opc 0 a 0 cap) = .ok (k a cap) := by
  simp [decodeSC, rdField_packWord, rs1Field_packWord, rs2Field_packWord, immHighField_packWord, capField_packWord,
    readReg_ofNat, a.isLt, hcap]

/-- The decoder reads every legal command back from its word (R85, R90): its operation code selects the row, and the row's format reads the operands. -/
theorem decode_encode {i : Instr} (h : i.wf = true) : decode (encode i) = .ok i := by
  unfold decode
  cases i with
  | zero rd => rw [Laws.OpcodeField.zero]; exact decodeD_packWord _ _ rd
  | one rd => rw [Laws.OpcodeField.one]; exact decodeD_packWord _ _ rd
  | mov rd rs1 => rw [Laws.OpcodeField.mov]; exact decodeDS_packWord _ _ rd rs1
  | canon rd rs1 => rw [Laws.OpcodeField.canon]; exact decodeDS_packWord _ _ rd rs1
  | iszero rs1 => rw [Laws.OpcodeField.iszero]; exact decodeS_packWord _ _ rs1
  | isone rs1 => rw [Laws.OpcodeField.isone]; exact decodeS_packWord _ _ rs1
  | trace rs1 => rw [Laws.OpcodeField.trace]; exact decodeS_packWord _ _ rs1
  | add rd rs1 rs2 => rw [Laws.OpcodeField.add]; exact decodeDSS_packWord _ _ rd rs1 rs2
  | sqr rd rs1 => rw [Laws.OpcodeField.sqr]; exact decodeDS_packWord _ _ rd rs1
  | mul rd rs1 rs2 => rw [Laws.OpcodeField.mul]; exact decodeDSS_packWord _ _ rd rs1 rs2
  | pow rd rs1 rs2 => rw [Laws.OpcodeField.pow]; exact decodeDSS_packWord _ _ rd rs1 rs2
  | inv rd rs1 => rw [Laws.OpcodeField.inv]; exact decodeDS_packWord _ _ rd rs1
  | tobin rs1 cap => rw [Laws.OpcodeField.tobin]; exact decodeSC_packWord _ _ rs1 h
  | frombin rd => rw [Laws.OpcodeField.frombin]; exact decodeD_packWord _ _ rd
  | tohex rs1 cap => rw [Laws.OpcodeField.tohex]; exact decodeSC_packWord _ _ rs1 h
  | fromhex rd => rw [Laws.OpcodeField.fromhex]; exact decodeD_packWord _ _ rd

end Sys2Proof

namespace Sys2Proof.Machine

-- The core's turn (R31)

theorem State.pend_of_atCoreTurn {s u : State} (h : s.atCoreTurn u) : u.pend = s.pend := by
  rcases h with ⟨_, rfl⟩ | ⟨es, _, rfl⟩ <;> rfl

/-- When BUSY = 1 and the core's turn has come, a step is the core step (R31). -/
theorem step_eq_runPending {s u : State} (hb : s.busy = true) (h : s.atCoreTurn u) : step s = runPending u := by
  rcases h with ⟨hin, rfl⟩ | ⟨es, hin, rfl⟩
  · rw [step, hin]
    exact if_pos hb
  · rw [step, hin]
    exact if_pos hb

theorem runPending_of_decode {s : State} {i : Instr} (h : decode s.pend = .ok i) : runPending s = exec i s := by
  rw [runPending, h]

/-- The core step answers a next state and drops BUSY, whatever the pending word (R31, R274). -/
theorem runPending_answers_next (s : State) : ∃ t, runPending s = .next t ∧ t.busy = false := by
  unfold runPending
  split
  · obtain ⟨t, ht⟩ := exec_answers_next _ s
    exact ⟨t, ht, exec_busy ht⟩
  · exact ⟨_, illegalWord_eq s, rfl⟩

/-- Settles O5: the core step on a word that decodes is `exec` of the command. -/
theorem stepRunsDecodedCommand : Obligations.StepRunsDecodedCommand := by
  intro s u i hb hturn hi
  rw [← State.pend_of_atCoreTurn hturn] at hi
  rw [step_eq_runPending hb hturn, runPending_of_decode hi]

/-- A write to CMD of an idle block accepts the word (R31, R53). -/
theorem hostWrite_cmd {s : State} (hb : s.busy = false) (d : Word) : hostWrite s 0x000 d = s.accept d := by
  have hmis : misaligned 0x000 = false := by decide
  have hcmd : hostTarget 0x000 = .cmd := by decide
  rw [hostWrite, hmis, hb, hcmd]
  rfl

/-- A run of one step is that step. -/
theorem run_one (M : Host.Core) (s : M.State) : M.run 1 s = M.step s := by
  simp only [Host.Core.run]
  cases M.step s <;> rfl

/-- A legal command accepted with the core's turn next is run by the next step (R31). -/
theorem step_accepted (s : State) {i : Instr} (es : List HostEvent) (hwf : i.wf = true) :
    step ((s.setStream (.coreTurn :: es)).accept (encode i)) = exec i ((s.accept (encode i)).setStream es) := by
  have hturn : ((s.setStream (.coreTurn :: es)).accept (encode i)).atCoreTurn ((s.accept (encode i)).setStream es) :=
    .inr ⟨es, rfl, rfl⟩
  have hpend : decode ((s.setStream (.coreTurn :: es)).accept (encode i)).pend = .ok i := by
    rw [State.accept_pend, decode_encode hwf]
  exact stepRunsDecodedCommand _ _ i rfl hturn hpend

/-- Settles O6: the first step accepts the word, and the second runs it. -/
theorem hostIssuedCommandRuns : Obligations.HostIssuedCommandRuns := by
  intro s i es hwf hb hin
  have hwrite : step s = .next ((s.setStream (.coreTurn :: es)).accept (encode i)) := by
    rw [step, hin, ← hostWrite_cmd (s := s.setStream (.coreTurn :: es)) hb]
    rfl
  exact (run_succ Sys2Proof.core hwrite 1).trans ((run_one Sys2Proof.core _).trans (step_accepted s es hwf))

-- Completion and failure (R40, R260, R266)

theorem State.unchanged_complete (s : State) (k : ErrKind) : s.unchanged (s.complete k) :=
  ⟨fun _ => rfl, fun _ => rfl, rfl, ⟨rfl, rfl⟩, rfl, rfl, rfl, rfl, rfl⟩

/-- A command whose outcome is not OK writes nothing but the outcome and BUSY (R266). -/
theorem exec_failed {i : Instr} {s t : State} (h : exec i s = .next t) (herr : t.err ≠ .ok) :
    ∃ k, t = s.complete k := by
  have hs := exec_shape i s
  rw [h] at hs
  cases hs
  case failed k _ => exact ⟨k, rfl⟩
  all_goals exact absurd rfl herr

/-- The core step with an outcome other than OK writes nothing but the outcome and BUSY (R263, R266). -/
theorem runPending_failed {s t : State} (h : runPending s = .next t) (herr : t.err ≠ .ok) : ∃ k, t = s.complete k := by
  unfold runPending at h
  split at h
  · exact exec_failed h herr
  · rw [illegalWord_eq] at h
    cases h
    exact ⟨_, rfl⟩

/-- Settles O13: a failure is `complete` alone. -/
theorem failureWritesOnlyOutcome : Obligations.FailureWritesOnlyOutcome := by
  refine ⟨fun i s t h herr => ?_, fun s t h herr => ?_⟩
  · obtain ⟨k, rfl⟩ := exec_failed h herr
    exact ⟨rfl, s.unchanged_complete k⟩
  · obtain ⟨k, rfl⟩ := runPending_failed h herr
    exact ⟨rfl, s.unchanged_complete k⟩

@[simp] theorem hostRead_err (s : State) (off : Offset) : (hostRead s off).err = s.err := by
  rcases hostRead_cases s off with ⟨d, _, e⟩ | ⟨_, e⟩ <;> rw [e] <;> rfl

@[simp] theorem hostWrite_err (s : State) (off : Offset) (d : Word) : (hostWrite s off d).err = s.err := by
  rcases hostWrite_cases s off d with e | ⟨_, e | ⟨r, k, e⟩ | ⟨j, e⟩⟩ <;> rw [e] <;> rfl

/-- A core's turn that changes ERR ends a command (R260). -/
theorem coreTurn_err {s t : State} (h : coreTurn s = .next t) (herr : t.err ≠ s.err) :
    s.busy = true ∧ t.busy = false := by
  rcases coreTurn_cases s with ⟨_, e⟩ | ⟨hb, i, _, e⟩ | ⟨hb, _, e⟩ <;> rw [e] at h
  · cases h
    exact absurd rfl herr
  · exact ⟨hb, exec_busy h⟩
  · cases h
    exact ⟨hb, rfl⟩

/-- Settles O19: no transaction writes ERR, and the core's turn writes it only at a completion. -/
theorem errWrittenAtCompletion : Obligations.ErrWrittenAtCompletion := by
  intro s t h herr
  rcases step_cases s with ⟨hin, e⟩ | ⟨ev, es, hin, e⟩ <;> rw [e] at h
  · obtain ⟨hb, hfall⟩ := coreTurn_err h herr
    exact .inl ⟨hb, hfall, s, .inl ⟨hin, rfl⟩⟩
  · cases ev with
    | read off =>
      cases h
      exact absurd (hostRead_err _ off) herr
    | write off d =>
      cases h
      exact absurd (hostWrite_err _ off d) herr
    | coreTurn =>
      obtain ⟨hb, hfall⟩ := coreTurn_err (s := s.setStream es) h herr
      exact .inl ⟨hb, hfall, _, .inr ⟨es, hin, rfl⟩⟩
    | reset draw => exact .inr ⟨draw, es, hin⟩

-- Fairness in the model's form (R31)

/-- A run followed by a step is a run of one step more. -/
theorem State.runsTo_snoc {s u t : State} {k : Nat} (h : s.runsTo k u) (hstep : step u = .next t) : s.runsTo (k + 1) t := by
  induction k generalizing s with
  | zero =>
    cases h
    exact (State.runsTo_succ hstep 0 t).mpr rfl
  | succ k ih =>
    cases hs : step s with
    | next s' => exact (State.runsTo_succ hs _ _).mpr (ih ((State.runsTo_succ hs _ _).mp h))
    | fault r => exact nomatch r
    | refused r => simp [State.runsTo, Host.Core.run, Sys2Proof.core, hs] at h

/-- A write to a busy block is a protocol error (R53, R58). -/
theorem hostWrite_of_busy {s : State} (hb : s.busy = true) (off : Offset) (d : Word) :
    hostWrite s off d = s.protocolError := by
  rcases hostWrite_cases s off d with e | ⟨hidle, _⟩
  · exact e
  · simp [hb] at hidle

/-- The block `t` is busy, with the word pending and the ERR of `s` (R58, R260). -/
def State.sameCommand (s t : State) : Prop := t.busy = true ∧ t.pend = s.pend ∧ t.err = s.err

theorem State.sameCommand_trans {s t u : State} (h : s.sameCommand t) (h' : t.sameCommand u) : s.sameCommand u := by
  obtain ⟨_, hpend, herr⟩ := h
  obtain ⟨hb, hpend', herr'⟩ := h'
  exact ⟨hb, hpend'.trans hpend, herr'.trans herr⟩

/-- A transaction leaves a busy block waiting with the same command. -/
theorem hostRead_sameCommand {s : State} (hb : s.busy = true) (off : Offset) :
    s.sameCommand (hostRead s off) ∧ (hostRead s off).hostIn = s.hostIn := by
  rcases hostRead_cases s off with ⟨d, _, e⟩ | ⟨_, e⟩ <;> rw [e] <;> exact ⟨⟨hb, rfl, rfl⟩, rfl⟩

theorem hostWrite_sameCommand {s : State} (hb : s.busy = true) (off : Offset) (d : Word) :
    s.sameCommand (hostWrite s off d) ∧ (hostWrite s off d).hostIn = s.hostIn := by
  rw [hostWrite_of_busy hb]
  exact ⟨⟨hb, rfl, rfl⟩, rfl⟩

/-- The core's turn, or a reset of the stream `l`, comes after no more steps than `l` has events; until then the block waits with the same command. -/
def State.reachesTurnOrReset (s : State) (l : List HostEvent) : Prop :=
  ∃ k ≤ l.length, ∃ u, s.runsTo k u ∧ s.sameCommand u ∧
    ((∃ v, u.atCoreTurn v) ∨ ∃ d es, u.hostIn = .reset d :: es ∧ HostEvent.reset d ∈ l)

theorem State.reachesTurnOrReset_cons {s s' : State} {es : List HostEvent} (e : HostEvent) (hstep : step s = .next s')
    (hsame : s.sameCommand s') (h : s'.reachesTurnOrReset es) : s.reachesTurnOrReset (e :: es) := by
  obtain ⟨k, hk, u, hrun, hu, hend⟩ := h
  refine ⟨k + 1, Nat.succ_le_succ hk, u, (State.runsTo_succ hstep k u).mpr hrun, State.sameCommand_trans hsame hu, ?_⟩
  exact hend.imp_right fun ⟨d, es', hin, hmem⟩ => ⟨d, es', hin, List.mem_cons_of_mem e hmem⟩

/-- A busy block reaches the core's turn or a reset, by induction on the stream: a transaction only takes itself from it (R31, R58). -/
theorem busy_reachesTurnOrReset {s : State} (hb : s.busy = true) : s.reachesTurnOrReset s.hostIn := by
  generalize hin : s.hostIn = l
  induction l generalizing s with
  | nil => exact ⟨0, le_rfl, s, rfl, ⟨hb, rfl, rfl⟩, .inl ⟨s, .inl ⟨hin, rfl⟩⟩⟩
  | cons e es ih =>
    have hstep : step s = takeEvent (s.setStream es) e := by rw [step, hin]
    cases e with
    | read off =>
      obtain ⟨hsame, hrest⟩ := hostRead_sameCommand (s := s.setStream es) hb off
      exact State.reachesTurnOrReset_cons _ hstep hsame (ih hsame.1 hrest)
    | write off d =>
      obtain ⟨hsame, hrest⟩ := hostWrite_sameCommand (s := s.setStream es) hb off d
      exact State.reachesTurnOrReset_cons _ hstep hsame (ih hsame.1 hrest)
    | coreTurn => exact ⟨0, Nat.zero_le _, s, rfl, ⟨hb, rfl, rfl⟩, .inl ⟨_, .inr ⟨es, hin, rfl⟩⟩⟩
    | reset draw => exact ⟨0, Nat.zero_le _, s, rfl, ⟨hb, rfl, rfl⟩, .inr ⟨draw, es, hin, List.mem_cons_self⟩⟩

theorem step_reset {s : State} {draw : ResetDraw} {es : List HostEvent} (hin : s.hostIn = .reset draw :: es) :
    step s = .next (hostReset (s.setStream es) draw) := by
  rw [step, hin]
  rfl

@[simp] theorem hostReset_txt (s : State) (draw : ResetDraw) : (hostReset s draw).txt = memOfCells draw.txt := rfl

theorem statusWord_hostReset (s : State) (draw : ResetDraw) : statusWord (hostReset s draw) = 0 := by
  show statusWord State.reset = 0
  decide

/-- Settles O21: the core's turn or the reset that comes drops BUSY. -/
theorem busyFalls : Obligations.BusyFalls := by
  intro s hb
  obtain ⟨k, hk, u, hrun, ⟨hub, _, _⟩, ⟨v, hturn⟩ | ⟨d, es, hin, _⟩⟩ := busy_reachesTurnOrReset hb
  · obtain ⟨t, ht, hfall⟩ := runPending_answers_next v
    rw [← step_eq_runPending hub hturn] at ht
    exact ⟨k + 1, by omega, t, State.runsTo_snoc hrun ht, hfall⟩
  · exact ⟨k + 1, by omega, _, State.runsTo_snoc hrun (step_reset hin), rfl⟩

/-- Settles O59: with no reset in the stream what comes is the core's turn. -/
theorem coreTurnComes : Obligations.CoreTurnComes := by
  intro s hb hnoreset
  obtain ⟨k, hk, u, hrun, ⟨hub, hpend, herr⟩, ⟨v, hturn⟩ | ⟨d, _, _, hmem⟩⟩ := busy_reachesTurnOrReset hb
  · obtain ⟨t, ht, hfall⟩ := runPending_answers_next v
    exact ⟨k, hk, u, v, t, hrun, hub, hpend, herr, hturn, (step_eq_runPending hub hturn).trans ht, ht, hfall⟩
  · exact absurd hmem (hnoreset d)

-- Reset (R39, R301)

/-- Settles O11: nothing is listed in TXT, and neither FATAL nor `tbl_ready` is set. -/
theorem resetMeetsInv : Obligations.ResetMeetsInv := ⟨Memory.wf_nil, rfl, nofun⟩

/-- The text of a draw that lists every byte of TXT. -/
def cellsOf (bytes : Nat → Byte) : List Host.Cell := (List.range 512).map fun k => (k, bytes k)

/-- A draw that leaves the given registers, text bytes, pending word and table store. -/
def drawOf (regs : Vector Elem 8) (bytes : Nat → Byte) (pend : Word) (tbl : List Pair) : ResetDraw where
  regs := regs
  txt := cellsOf bytes
  pend := pend
  tbl := tbl

@[simp] theorem drawOf_txt (regs : Vector Elem 8) (bytes : Nat → Byte) (pend : Word) (tbl : List Pair) :
    (drawOf regs bytes pend tbl).txt = cellsOf bytes := by
  rw [drawOf]

/-- A byte that a list of indices draws reads as drawn. -/
theorem memRead_memOfCells_map {bytes : Nat → Byte} {l : List Nat} {k : Nat} (hk : k < 512) (hmem : k ∈ l) :
    memRead (memOfCells (l.map fun i => (i, bytes i))) k = bytes k := by
  induction l with
  | nil => contradiction
  | cons a l ih =>
    have htail : a ≠ k → memRead (memOfCells (l.map fun i => (i, bytes i))) k = bytes k := fun hne =>
      ih ((List.mem_cons.mp hmem).resolve_left (Ne.symm hne))
    simp only [List.map_cons, memOfCells]
    split
    · rw [memRead_memWrite (Memory.wf_memOfCells _)]
      split
      · subst a
        rfl
      · exact htail ‹_›
    · exact htail (by simp only [Config.txtSize] at *; omega)

theorem memRead_cellsOf (bytes : Nat → Byte) {k : Nat} (hk : k < 512) :
    memRead (memOfCells (cellsOf bytes)) k = bytes k := by
  rw [cellsOf]
  exact memRead_memOfCells_map hk (List.mem_range.mpr hk)

/-- Settles O22: a reset event leaves what `hostReset` says, and `drawOf` draws any content. -/
theorem resetLeavesTheRestOpen : Obligations.ResetLeavesTheRestOpen := by
  refine ⟨⟨by decide, rfl, rfl⟩, fun s draw es hin => ?_, fun regs bytes pend tbl => ?_⟩
  · exact ⟨_, step_reset hin, statusWord_hostReset _ _, rfl, rfl, rfl, rfl⟩
  · refine ⟨drawOf regs bytes pend tbl, fun s es hin => ⟨_, step_reset hin, rfl, fun k hk => ?_, rfl, rfl⟩⟩
    rw [hostReset_txt, drawOf_txt, memRead_cellsOf bytes hk]

-- STATUS (R26)

theorem getLsbD_boolWord (b : Bool) (n : Nat) : (boolWord b).getLsbD n = (decide (n = 0) && b) := by
  cases b <;> simp [boolWord, BitVec.getLsbD_one]

theorem getLsbD_boolWord_shiftLeft (b : Bool) (k : Nat) {n : Nat} (hn : n < 32) :
    (boolWord b <<< k).getLsbD n = (decide (n = k) && b) := by
  rw [BitVec.getLsbD_shiftLeft, getLsbD_boolWord]
  by_cases hlt : n < k
  · simp [hlt, show n ≠ k by omega]
  · simp [hlt, hn, show n - k = 0 ↔ n = k by omega]

/-- STATUS bit by bit. -/
theorem getLsbD_statusWord (s : State) {n : Nat} (hn : n < 32) :
    (statusWord s).getLsbD n = ((decide (n = 0) && s.busy) || (decide (n = 1) && s.fatal) || (decide (n = 2) && s.herr) ||
      (decide (8 ≤ n) && (errCode s.err).getLsbD (n - 8))) := by
  have hcode : ((errCode s.err).setWidth 32 <<< 8).getLsbD n = (decide (8 ≤ n) && (errCode s.err).getLsbD (n - 8)) := by
    rw [BitVec.getLsbD_shiftLeft, BitVec.getLsbD_setWidth]
    by_cases hlt : n < 8
    · simp [hlt, Nat.not_le.mpr hlt]
    · simp [hlt, hn, Nat.le_of_not_lt hlt, show n - 8 < 32 by omega]
  rw [statusWord, BitVec.getLsbD_or, BitVec.getLsbD_or, BitVec.getLsbD_or, getLsbD_boolWord,
    getLsbD_boolWord_shiftLeft _ _ hn, getLsbD_boolWord_shiftLeft _ _ hn, hcode]

/-- STATUS above its three flags is the outcome code shifted up by 8. -/
theorem getLsbD_statusWord_of_ge (s : State) {n : Nat} (h3 : 3 ≤ n) (hn : n < 32) :
    (statusWord s).getLsbD n = (decide (8 ≤ n) && (errCode s.err).getLsbD (n - 8)) := by
  simp [getLsbD_statusWord s hn, show n ≠ 0 by omega, show n ≠ 1 by omega, show n ≠ 2 by omega]

/-- Settles O18: each field is read off STATUS bit by bit. -/
theorem statusRegisterFields : Obligations.StatusRegisterFields := by
  refine ⟨fun s => ⟨?_, ?_, ?_, ?_, ?_, ?_⟩, rfl, rfl, rfl, rfl, rfl, rfl, rfl, rfl⟩
  · simpa using getLsbD_statusWord s (n := 0) (by decide)
  · simpa using getLsbD_statusWord s (n := 1) (by decide)
  · simpa using getLsbD_statusWord s (n := 2) (by decide)
  all_goals
    apply BitVec.eq_of_getLsbD_eq
    intro n hn
    rw [BitVec.getLsbD_extractLsb', getLsbD_statusWord_of_ge _ (by omega) (by omega)]
  · simp [show ¬ 8 ≤ 3 + n by omega]
  · simp [hn]
  · simp [BitVec.getLsbD_of_ge (errCode s.err) (16 + n - 8) (by omega)]

end Sys2Proof.Machine
end

section
/-! PROOFS. The host port: what a read answers and what a write stores, offset by offset, and HERR (R52 to R60, R67). -/

namespace Sys2Proof.Machine

-- The address map (R54)

theorem hostTarget_cmd {off : Offset} (h : off.toNat = 0x000) : hostTarget off = .cmd := by
  rw [hostTarget, if_pos h]

theorem hostTarget_status {off : Offset} (h : off.toNat = 0x004) : hostTarget off = .status := by
  rw [hostTarget, if_neg (by omega), if_pos h]

theorem hostTarget_result {off : Offset} (h : off.toNat = 0x008) : hostTarget off = .result := by
  rw [hostTarget, if_neg (by omega), if_neg (by omega), if_pos h]

/-- The offset is that of a word of an element register (R54). -/
def namesElemWord (off : Offset) : Prop := ∃ (r : Reg) (k : WordIdx), off.toNat = 0x100 + 0x40 * r.val + 4 * k.val

/-- The offset is that of a word of TXT (R54). -/
def namesTxtWord (off : Offset) : Prop := ∃ j < 128, off.toNat = 0x400 + 4 * j

/-- The offsets of element words and TXT words are aligned (R60). -/
theorem aligned_of_names {off : Offset} (h : namesElemWord off ∨ namesTxtWord off) : off.toNat % 4 = 0 := by
  rcases h with ⟨r, k, h⟩ | ⟨j, _, h⟩ <;> omega

/-- An aligned offset outside the element words and TXT is one of the three control words or unmapped (R54). -/
theorem hostTarget_cases_of_not_names {off : Offset} (h4 : off.toNat % 4 = 0) (he : ¬ namesElemWord off)
    (ht : ¬ namesTxtWord off) :
    (hostTarget off = .cmd ∧ off.toNat = 0x000) ∨ (hostTarget off = .status ∧ off.toNat = 0x004) ∨
    (hostTarget off = .result ∧ off.toNat = 0x008) ∨ hostTarget off = .unmapped := by
  rcases hostTarget_cases off h4 with h | h | h | ⟨r, k, _, h⟩ | ⟨j, _, h⟩ | h
  · exact .inl h
  · exact .inr (.inl h)
  · exact .inr (.inr (.inl h))
  · exact absurd ⟨r, k, h⟩ he
  · exact absurd ⟨j.val, j.isLt, h⟩ ht
  · exact .inr (.inr (.inr h))

-- What a read answers (R52)

section Read
variable {s : State} {off : Offset}

theorem hostReadValue_misaligned (h : off.toNat % 4 ≠ 0) : hostReadValue s off = none := by
  simp [hostReadValue, misaligned_eq, h]

/-- STATUS is readable whatever BUSY is (R58). -/
theorem hostReadValue_status (h : off.toNat = 0x004) : hostReadValue s off = some (statusWord s) := by
  simp [hostReadValue, misaligned_eq, hostTarget_status h, h]

theorem hostReadValue_result (hb : s.busy = false) (h : off.toNat = 0x008) : hostReadValue s off = some s.result := by
  simp [hostReadValue, misaligned_eq, hostTarget_result h, h, hb]

theorem hostReadValue_elemWord (hb : s.busy = false) {r : Reg} {k : WordIdx}
    (h : off.toNat = 0x100 + 0x40 * r.val + 4 * k.val) : hostReadValue s off = some (elemWord (s.elem r) k) := by
  simp [hostReadValue, misaligned_eq, aligned_of_names (.inl ⟨r, k, h⟩), hostTarget_elemWord h, hb]

theorem hostReadValue_txtWord (hb : s.busy = false) {j : Nat} (hj : j < 128) (h : off.toNat = 0x400 + 4 * j) :
    hostReadValue s off = some (txtWord s.txt j) := by
  simp [hostReadValue, misaligned_eq, aligned_of_names (.inr ⟨j, hj, h⟩), hostTarget_txtWord hj h, hb]

/-- Only STATUS is readable while BUSY = 1 (R58). -/
theorem hostReadValue_busy (hb : s.busy = true) (h : off.toNat ≠ 0x004) : hostReadValue s off = none := by
  by_cases h4 : off.toNat % 4 = 0
  · rcases hostTarget_cases off h4 with ⟨e, _⟩ | ⟨_, hs⟩ | ⟨e, _⟩ | ⟨r, k, e, _⟩ | ⟨j, e, _⟩ | e
    case inr.inl => exact absurd hs h
    all_goals simp [hostReadValue, e, hb]
  · exact hostReadValue_misaligned h4

/-- CMD and the unmapped offsets answer no value (R52). -/
theorem hostReadValue_not_names (hs : off.toNat ≠ 0x004) (hr : off.toNat ≠ 0x008) (he : ¬ namesElemWord off)
    (ht : ¬ namesTxtWord off) : hostReadValue s off = none := by
  by_cases h4 : off.toNat % 4 = 0
  · rcases hostTarget_cases_of_not_names h4 he ht with ⟨e, _⟩ | ⟨_, h⟩ | ⟨_, h⟩ | e
    · simp [hostReadValue, e]
    · exact absurd h hs
    · exact absurd h hr
    · simp [hostReadValue, e]
  · exact hostReadValue_misaligned h4

/-- A read's step: the value, or 0 for a protocol error, is recorded, and HERR rises for a protocol error (R52, R59). -/
theorem step_read {es : List HostEvent} (hin : s.hostIn = .read off :: es) :
    step s = .next { s with
      hostIn := es
      replies := (hostReadValue s off).getD 0 :: s.replies
      herr := s.herr || (hostReadValue s off).isNone } := by
  have hstep : step s = .next (hostRead (s.setStream es) off) := by
    rw [step, hin]
    rfl
  have hval : hostReadValue (s.setStream es) off = hostReadValue s off := rfl
  rw [hstep, hostRead, hval]
  cases hostReadValue s off with
  | some v => simp [State.reply, State.setStream]
  | none => simp [State.reply, State.protocolError, State.setStream]

end Read

/-- Settles O15: the value of the read and whether it is an error are `hostReadValue`, which the lemmas above give offset by offset. -/
theorem hostReadFollowsMap : Obligations.HostReadFollowsMap := by
  intro s off es hin
  refine ⟨_, _, step_read hin, fun h => ?_, fun h => ?_, fun hb h => ?_, fun hb h => ?_, fun hb r k h => ?_,
    fun hb j hj h => ?_, fun hs hr he ht => ?_⟩
  · rw [hostReadValue_misaligned h]
    exact ⟨rfl, rfl⟩
  · rw [hostReadValue_status h]
    exact ⟨rfl, rfl⟩
  · rw [hostReadValue_busy hb h]
    exact ⟨rfl, rfl⟩
  · rw [hostReadValue_result hb h]
    exact ⟨rfl, rfl⟩
  · rw [hostReadValue_elemWord hb h]
    exact ⟨rfl, rfl⟩
  · rw [hostReadValue_txtWord hb hj h]
    exact ⟨extractLsb'_txtWord s.txt j, rfl⟩
  · rw [hostReadValue_not_names hs hr (fun ⟨r, k, h⟩ => he r k h) (fun ⟨j, hj, h⟩ => ht j hj h)]
    exact ⟨rfl, rfl⟩

-- What a write stores (R53)

section Write
variable {s : State} {off : Offset} (d : Word)

theorem hostWrite_misaligned (h : off.toNat % 4 ≠ 0) : hostWrite s off d = s.protocolError := by
  simp [hostWrite, misaligned_eq, h]

theorem hostWrite_elemWord (hb : s.busy = false) {r : Reg} {k : WordIdx}
    (h : off.toNat = 0x100 + 0x40 * r.val + 4 * k.val) :
    hostWrite s off d = s.setElem r (setElemWord (s.elem r) k d) := by
  simp [hostWrite, misaligned_eq, aligned_of_names (.inl ⟨r, k, h⟩), hostTarget_elemWord h, hb]

theorem hostWrite_txtWord (hb : s.busy = false) {j : Nat} (hj : j < 128) (h : off.toNat = 0x400 + 4 * j) :
    hostWrite s off d = { s with txt := setTxtWord s.txt j d } := by
  simp [hostWrite, misaligned_eq, aligned_of_names (.inr ⟨j, hj, h⟩), hostTarget_txtWord hj h, hb]

/-- STATUS, RESULT and the unmapped offsets take no write (R53). -/
theorem hostWrite_not_names (hc : off.toNat ≠ 0x000) (he : ¬ namesElemWord off) (ht : ¬ namesTxtWord off) :
    hostWrite s off d = s.protocolError := by
  by_cases h4 : off.toNat % 4 = 0
  · rcases hostTarget_cases_of_not_names h4 he ht with ⟨_, h⟩ | ⟨e, _⟩ | ⟨e, _⟩ | e
    case inl => exact absurd h hc
    all_goals simp [hostWrite, e]
  · exact hostWrite_misaligned d h4

theorem step_write {d : Word} {es : List HostEvent} (hin : s.hostIn = .write off d :: es) :
    step s = .next (hostWrite (s.setStream es) off d) := by
  rw [step, hin]
  rfl

end Write

/-- Settles O16: the step is `hostWrite`, which the lemmas above give offset by offset. -/
theorem hostWriteFollowsMap : Obligations.HostWriteFollowsMap := by
  intro s off d es hwf hin
  rw [step_write hin]
  refine ⟨fun h => ?_, fun hb h => ?_, fun hb r k h => ?_, fun hb j hj h => ?_, fun hc he ht => ?_⟩
  · rcases h with h4 | hb
    · rw [hostWrite_misaligned d h4]
      rfl
    · rw [hostWrite_of_busy (s := s.setStream es) hb]
      rfl
  · obtain rfl : off = 0x000 := BitVec.eq_of_toNat_eq h
    rw [hostWrite_cmd (s := s.setStream es) hb]
    rfl
  · refine ⟨setElemWord (s.elem r) k d, ?_, ?_, fun q hq => ?_⟩
    · rw [hostWrite_elemWord (s := s.setStream es) d hb h]
      rfl
    · rw [elemWord_setElemWord, if_pos rfl]
    · rw [elemWord_setElemWord, if_neg hq]
  · refine ⟨setTxtWord s.txt j d, ?_, fun n hn => ?_, fun k hk => ?_⟩
    · rw [hostWrite_txtWord (s := s.setStream es) d hb hj h]
      rfl
    · rw [memRead_setTxtWord ⟨j, hj⟩ d _ hwf, if_pos (by simp only; omega), Nat.add_sub_cancel_left]
    · rw [memRead_setTxtWord ⟨j, hj⟩ d k hwf, if_neg (by simp only; omega)]
  · rw [hostWrite_not_names d hc (fun ⟨r, k, h⟩ => he r k h) (fun ⟨j, hj, h⟩ => ht j hj h)]
    rfl

-- A read after a write (R67)

/-- A word is its four bytes (R57). -/
theorem eq_of_bytes_eq {x y : Word} (h : ∀ n < 4, x.extractLsb' (8 * n) 8 = y.extractLsb' (8 * n) 8) : x = y := by
  apply BitVec.eq_of_getLsbD_eq
  intro i hi
  have hbit := congrArg (fun b => b.getLsbD (i % 8)) (h (i / 8) (by omega))
  simpa only [BitVec.getLsbD_extractLsb', Nat.mod_lt i (show 8 > 0 by decide), decide_true, Bool.true_and,
    Nat.div_add_mod] using hbit

/-- A word of TXT reads as it was written (R57). -/
theorem txtWord_setTxtWord {m : Txt} (j : Fin 128) (d : Word) (hm : Memory.wf m) : txtWord (setTxtWord m j d) j = d := by
  apply eq_of_bytes_eq
  intro n hn
  rw [extractLsb'_txtWord _ _ _ hn, memRead_setTxtWord j d _ hm, if_pos (by omega), Nat.add_sub_cancel_left]

/-- A write to an element word or TXT word of an idle block is read back, and it leaves HERR and the record of reads as they were (R67). -/
theorem hostWrite_readBack {s : State} {off : Offset} (d : Word) (hwf : Memory.wf s.txt) (hb : s.busy = false)
    (h : namesElemWord off ∨ namesTxtWord off) :
    hostReadValue (hostWrite s off d) off = some d ∧ (hostWrite s off d).hostIn = s.hostIn ∧
      (hostWrite s off d).replies = s.replies ∧ (hostWrite s off d).herr = s.herr := by
  rcases h with ⟨r, k, h⟩ | ⟨j, hj, h⟩
  · rw [hostWrite_elemWord d hb h]
    refine ⟨?_, rfl, rfl, rfl⟩
    rw [hostReadValue_elemWord (s := s.setElem r _) hb h, State.elem_setElem_self, elemWord_setElemWord, if_pos rfl]
  · rw [hostWrite_txtWord d hb hj h]
    have hval := hostReadValue_txtWord (s := { s with txt := setTxtWord s.txt j d }) hb hj h
    rw [txtWord_setTxtWord ⟨j, hj⟩ d hwf] at hval
    exact ⟨hval, rfl, rfl, rfl⟩

/-- Settles O20: the second step reads what the first wrote. -/
theorem writeThenReadBack : Obligations.WriteThenReadBack := by
  intro s off d es hwf hb hin h
  obtain ⟨hval, hrest, hrep, hherr⟩ := hostWrite_readBack (s := s.setStream (.read off :: es)) d hwf hb h
  refine ⟨_, (State.runsTo_succ (step_write hin) 1 _).mpr ((State.runsTo_succ (step_read hrest) 0 _).mpr rfl), ?_, ?_⟩
  · simp [hval, hrep]
  · simp [hval, hherr]

-- HERR (R59, R272)

/-- The state with another HERR. -/
def State.withHerr (s : State) (b : Bool) : State := { s with herr := b }

@[simp] theorem State.withHerr_herr (s : State) (b : Bool) : (s.withHerr b).herr = b := rfl
@[simp] theorem State.withHerr_txt (s : State) (b : Bool) : (s.withHerr b).txt = s.txt := rfl
@[simp] theorem State.elem_withHerr (s : State) (b : Bool) (r : Reg) : (s.withHerr b).elem r = s.elem r := rfl

/-- A state with its own HERR is itself. -/
theorem State.withHerr_self (s : State) : s.withHerr s.herr = s := rfl

/-- The answer with another HERR in its next state. -/
def answerWithHerr (b : Bool) : Result → Result
  | .next t => .next (t.withHerr b)
  | .fault r => .fault r
  | .refused r => .refused r

theorem answerWithHerr_ite (b : Bool) (c : Prop) [Decidable c] (x y : Result) :
    answerWithHerr b (if c then x else y) = if c then answerWithHerr b x else answerWithHerr b y :=
  apply_ite (answerWithHerr b) c x y

theorem answerWithHerr_failWith (b : Bool) (s : State) (k : ErrKind) :
    answerWithHerr b (failWith s k) = failWith (s.withHerr b) k := rfl

theorem answerWithHerr_writeString (b : Bool) (s : State) (str : List Byte) :
    answerWithHerr b (writeString s str) = writeString (s.withHerr b) str := rfl

/-- The checks before a command's own rule do not read HERR (R84). -/
theorem command_withHerr {s : State} {b legal : Bool} {srcs : List Reg} {body body' : Result}
    (h : body' = answerWithHerr b body) :
    command (s.withHerr b) legal srcs body' = answerWithHerr b (command s legal srcs body) := by
  subst h
  simp only [command, answerWithHerr_ite]
  rfl

theorem prepareTable_withHerr (s : State) (b used : Bool) :
    prepareTable (s.withHerr b) used = (prepareTable s used).withHerr b := by
  rw [prepareTable_eq, prepareTable_eq, apply_ite (fun t : State => t.withHerr b)]
  rfl

theorem writeWithTable_withHerr (s : State) (b used : Bool) (rd : Reg) (f : List Pair → Elem) :
    writeWithTable (s.withHerr b) used rd f = answerWithHerr b (writeWithTable s used rd f) := by
  simp only [writeWithTable, prepareTable_withHerr, answerWithHerr_ite]
  rfl

/-- A command gives the same answer whatever HERR is, with HERR as it was (R59, R272). -/
theorem exec_withHerr (i : Instr) (s : State) (b : Bool) : exec i (s.withHerr b) = answerWithHerr b (exec i s) := by
  cases i with
  | zero | one | mov | canon | iszero | isone | trace | add | sqr => exact command_withHerr rfl
  | mul | pow | inv => exact command_withHerr (writeWithTable_withHerr _ _ _ _ _)
  | tobin | tohex =>
    refine command_withHerr ?_
    rw [answerWithHerr_ite, answerWithHerr_failWith, answerWithHerr_writeString, State.elem_withHerr]
  | frombin rd =>
    refine command_withHerr ?_
    rw [State.withHerr_txt]
    cases parseBin s.txt <;> rfl
  | fromhex rd =>
    refine command_withHerr ?_
    rw [State.withHerr_txt]
    cases parseHex s.txt <;> rfl

theorem exec_withHerr_of_next {i : Instr} {s t : State} (h : exec i s = .next t) (b : Bool) :
    exec i (s.withHerr b) = .next (t.withHerr b) := by
  rw [exec_withHerr, h]
  rfl

/-- A command leaves HERR as it was. -/
theorem exec_herr {i : Instr} {s t : State} (h : exec i s = .next t) : t.herr = s.herr := by
  have hself := exec_withHerr_of_next h s.herr
  rw [State.withHerr_self, h] at hself
  rw [Host.Outcome.next.inj hself, State.withHerr_herr]

theorem coreTurn_herr {s t : State} (h : coreTurn s = .next t) : t.herr = s.herr := by
  rcases coreTurn_cases s with ⟨_, e⟩ | ⟨_, i, _, e⟩ | ⟨_, _, e⟩ <;> rw [e] at h
  · cases h
    rfl
  · exact exec_herr h
  · cases h
    rfl

theorem hostRead_herr_of_herr {s : State} (off : Offset) (h : s.herr = true) : (hostRead s off).herr = true := by
  rcases hostRead_cases s off with ⟨v, _, e⟩ | ⟨_, e⟩ <;> rw [e]
  · exact h
  · rfl

theorem hostWrite_herr_of_herr {s : State} (off : Offset) (d : Word) (h : s.herr = true) :
    (hostWrite s off d).herr = true := by
  rcases hostWrite_cases s off d with e | ⟨_, e | ⟨r, k, e⟩ | ⟨j, e⟩⟩ <;> rw [e]
  case inl => rfl
  all_goals exact h

/-- Every step but a reset event keeps HERR raised (R59). -/
theorem step_herr_of_herr {s t : State} (hherr : s.herr = true) (hnoreset : ∀ d es, s.hostIn ≠ .reset d :: es)
    (h : step s = .next t) : t.herr = true := by
  rcases step_cases s with ⟨_, e⟩ | ⟨ev, es, hin, e⟩ <;> rw [e] at h
  · exact (coreTurn_herr h).trans hherr
  · cases ev with
    | read off =>
      cases h
      exact hostRead_herr_of_herr off hherr
    | write off d =>
      cases h
      exact hostWrite_herr_of_herr off d hherr
    | coreTurn => exact (coreTurn_herr (s := s.setStream es) h).trans hherr
    | reset draw => exact absurd hin (hnoreset draw es)

/-- Settles O17: transactions only raise HERR, and a command commutes with setting it. -/
theorem herrStaysAndStopsNothing : Obligations.HerrStaysAndStopsNothing :=
  ⟨fun _ _ => step_herr_of_herr, fun _ _ _ b h => exec_withHerr_of_next h b⟩

end Sys2Proof.Machine
end

section
/-! PROOFS. The command word (30_encoding.md): the decoder accepts exactly the words the encoder gives, and a row's mask and match select exactly its command (R85, R90, R94). -/

namespace Sys2Proof

-- The fields of a word (R81)

theorem toNat_field (cw : Word) (start len : Nat) :
    (cw.extractLsb' start len).toNat = cw.toNat / 2 ^ start % 2 ^ len := by
  rw [BitVec.extractLsb'_toNat, Nat.shiftRight_eq_div_pow]

/-- The six fields hold every bit of a word. -/
theorem word_ext {x y : Word} (hopc : opcField x = opcField y) (hrd : rdField x = rdField y)
    (hrs1 : rs1Field x = rs1Field y) (hrs2 : rs2Field x = rs2Field y) (hhigh : immHighField x = immHighField y)
    (hcap : capField x = capField y) : x = y := by
  apply BitVec.eq_of_toNat_eq
  simp only [opcField, rdField, rs1Field, rs2Field, immHighField, capField, ← BitVec.toNat_inj, toNat_field] at *
  omega

theorem immField_eq_zero_iff (cw : Word) : immField cw = 0 ↔ immHighField cw = 0 ∧ capField cw = 0 := by
  simp only [immField, immHighField, capField, ← BitVec.toNat_inj, toNat_field, BitVec.ofNat_eq_ofNat,
    BitVec.toNat_ofNat]
  omega

/-- A word whose fields are those of a command is the packed word (R90). -/
theorem packWord_eq_of_fields {opc : BitVec 8} {cw : Word} {d s t : Reg} {cap : Cap} (hopc : opcField cw = opc)
    (hrd : rdField cw = BitVec.ofNat 4 d) (hrs1 : rs1Field cw = BitVec.ofNat 4 s) (hrs2 : rs2Field cw = BitVec.ofNat 4 t)
    (hhigh : immHighField cw = 0) (hcap : capField cw = cap) : packWord opc d s t cap = cw := by
  apply word_ext
  · rw [opcField_packWord _ _ d.isLt s.isLt t.isLt, hopc]
  · rw [rdField_packWord _ _ s.isLt t.isLt, hrd]
  · rw [rs1Field_packWord _ _ t.isLt, hrs1]
  · rw [rs2Field_packWord, hrs2]
  · rw [immHighField_packWord, hhigh]
  · rw [capField_packWord, hcap]

-- What each format accepts, and what it reads (R82)

theorem readReg_eq_ok_iff {f : BitVec 4} {r : Reg} : readReg f = .ok r ↔ f = BitVec.ofNat 4 r := by
  constructor
  · intro h
    unfold readReg at h
    split at h
    · cases h
      simp
    · cases h
  · rintro rfl
    exact readReg_ofNat r

variable {cw : Word} {i : Instr}

theorem decodeD_eq_ok_iff {k : Reg → Instr} :
    decodeD k cw = .ok i ↔ (rs1Field cw = 0 ∧ rs2Field cw = 0 ∧ immField cw = 0) ∧
      ∃ d, readReg (rdField cw) = .ok d ∧ k d = i := by
  unfold decodeD
  split
  · cases readReg (rdField cw) <;> simp [*]
  · simp only [*, false_and, reduceCtorEq]

theorem decodeDS_eq_ok_iff {k : Reg → Reg → Instr} :
    decodeDS k cw = .ok i ↔ (rs2Field cw = 0 ∧ immField cw = 0) ∧
      ∃ d s, readReg (rdField cw) = .ok d ∧ readReg (rs1Field cw) = .ok s ∧ k d s = i := by
  unfold decodeDS
  split
  · cases readReg (rdField cw) <;> cases readReg (rs1Field cw) <;> simp [*]
  · simp only [*, false_and, reduceCtorEq]

theorem decodeDSS_eq_ok_iff {k : Reg → Reg → Reg → Instr} :
    decodeDSS k cw = .ok i ↔ immField cw = 0 ∧ ∃ d s t, readReg (rdField cw) = .ok d ∧
      readReg (rs1Field cw) = .ok s ∧ readReg (rs2Field cw) = .ok t ∧ k d s t = i := by
  unfold decodeDSS
  split
  · cases readReg (rdField cw) <;> cases readReg (rs1Field cw) <;> cases readReg (rs2Field cw) <;> simp [*]
  · simp only [*, false_and, reduceCtorEq]

theorem decodeS_eq_ok_iff {k : Reg → Instr} :
    decodeS k cw = .ok i ↔ (rdField cw = 0 ∧ rs2Field cw = 0 ∧ immField cw = 0) ∧
      ∃ s, readReg (rs1Field cw) = .ok s ∧ k s = i := by
  unfold decodeS
  split
  · cases readReg (rs1Field cw) <;> simp [*]
  · simp only [*, false_and, reduceCtorEq]

theorem decodeSC_eq_ok_iff {k : Reg → Cap → Instr} :
    decodeSC k cw = .ok i ↔ (rdField cw = 0 ∧ rs2Field cw = 0 ∧ immHighField cw = 0) ∧
      capLegal (capField cw) = true ∧ ∃ s, readReg (rs1Field cw) = .ok s ∧ k s (capField cw) = i := by
  unfold decodeSC
  split
  · cases readReg (rs1Field cw)
    · simp
    · cases capLegal (capField cw) <;> simp [*]
  · simp only [*, false_and, reduceCtorEq]

-- An accepted word is the word of its command (R85, R88, R90), format by format: `hk` says what `encode` gives for the row's commands

section Accepted

variable {opc : BitVec 8} (hopc : opcField cw = opc)
include hopc

theorem decodeD_sound {k : Reg → Instr} (hk : ∀ d, (k d).wf = true ∧ encode (k d) = packWord opc d 0 0 0)
    (h : decodeD k cw = .ok i) : i.wf = true ∧ encode i = cw := by
  obtain ⟨⟨hs, ht, himm⟩, d, hd, rfl⟩ := decodeD_eq_ok_iff.mp h
  obtain ⟨hhigh, hcap⟩ := (immField_eq_zero_iff cw).mp himm
  obtain ⟨hwf, henc⟩ := hk d
  exact ⟨hwf, henc.trans (packWord_eq_of_fields (s := 0) (t := 0) hopc (readReg_eq_ok_iff.mp hd) hs
    ht hhigh hcap)⟩

theorem decodeDS_sound {k : Reg → Reg → Instr}
    (hk : ∀ d s, (k d s).wf = true ∧ encode (k d s) = packWord opc d s 0 0)
    (h : decodeDS k cw = .ok i) : i.wf = true ∧ encode i = cw := by
  obtain ⟨⟨ht, himm⟩, d, s, hd, hs, rfl⟩ := decodeDS_eq_ok_iff.mp h
  obtain ⟨hhigh, hcap⟩ := (immField_eq_zero_iff cw).mp himm
  obtain ⟨hwf, henc⟩ := hk d s
  exact ⟨hwf, henc.trans (packWord_eq_of_fields (t := 0) hopc (readReg_eq_ok_iff.mp hd) (readReg_eq_ok_iff.mp hs)
    ht hhigh hcap)⟩

theorem decodeDSS_sound {k : Reg → Reg → Reg → Instr}
    (hk : ∀ d s t, (k d s t).wf = true ∧ encode (k d s t) = packWord opc d s t 0)
    (h : decodeDSS k cw = .ok i) : i.wf = true ∧ encode i = cw := by
  obtain ⟨himm, d, s, t, hd, hs, ht, rfl⟩ := decodeDSS_eq_ok_iff.mp h
  obtain ⟨hhigh, hcap⟩ := (immField_eq_zero_iff cw).mp himm
  obtain ⟨hwf, henc⟩ := hk d s t
  exact ⟨hwf, henc.trans (packWord_eq_of_fields hopc (readReg_eq_ok_iff.mp hd) (readReg_eq_ok_iff.mp hs)
    (readReg_eq_ok_iff.mp ht) hhigh hcap)⟩

theorem decodeS_sound {k : Reg → Instr} (hk : ∀ s, (k s).wf = true ∧ encode (k s) = packWord opc 0 s 0 0)
    (h : decodeS k cw = .ok i) : i.wf = true ∧ encode i = cw := by
  obtain ⟨⟨hd, ht, himm⟩, s, hs, rfl⟩ := decodeS_eq_ok_iff.mp h
  obtain ⟨hhigh, hcap⟩ := (immField_eq_zero_iff cw).mp himm
  obtain ⟨hwf, henc⟩ := hk s
  exact ⟨hwf, henc.trans (packWord_eq_of_fields (d := 0) (t := 0) hopc hd (readReg_eq_ok_iff.mp hs)
    ht hhigh hcap)⟩

theorem decodeSC_sound {k : Reg → Cap → Instr}
    (hk : ∀ s cap, (k s cap).wf = capLegal cap ∧ encode (k s cap) = packWord opc 0 s 0 cap)
    (h : decodeSC k cw = .ok i) : i.wf = true ∧ encode i = cw := by
  obtain ⟨⟨hd, ht, hhigh⟩, hlegal, s, hs, rfl⟩ := decodeSC_eq_ok_iff.mp h
  obtain ⟨hwf, henc⟩ := hk s (capField cw)
  exact ⟨hwf.trans hlegal, henc.trans (packWord_eq_of_fields (d := 0) (t := 0) hopc hd
    (readReg_eq_ok_iff.mp hs) ht hhigh rfl)⟩

end Accepted

/-- The opcode map (R83): the operation code selects the row, and the row's format keeps every bit. -/
theorem decode_sound (h : decode cw = .ok i) : i.wf = true ∧ encode i = cw := by
  unfold decode at h
  split at h
  next hopc => exact decodeD_sound hopc (fun _ => ⟨rfl, rfl⟩) h
  next hopc => exact decodeD_sound hopc (fun _ => ⟨rfl, rfl⟩) h
  next hopc => exact decodeDS_sound hopc (fun _ _ => ⟨rfl, rfl⟩) h
  next hopc => exact decodeDS_sound hopc (fun _ _ => ⟨rfl, rfl⟩) h
  next hopc => exact decodeS_sound hopc (fun _ => ⟨rfl, rfl⟩) h
  next hopc => exact decodeS_sound hopc (fun _ => ⟨rfl, rfl⟩) h
  next hopc => exact decodeS_sound hopc (fun _ => ⟨rfl, rfl⟩) h
  next hopc => exact decodeDSS_sound hopc (fun _ _ _ => ⟨rfl, rfl⟩) h
  next hopc => exact decodeDS_sound hopc (fun _ _ => ⟨rfl, rfl⟩) h
  next hopc => exact decodeDSS_sound hopc (fun _ _ _ => ⟨rfl, rfl⟩) h
  next hopc => exact decodeDSS_sound hopc (fun _ _ _ => ⟨rfl, rfl⟩) h
  next hopc => exact decodeDS_sound hopc (fun _ _ => ⟨rfl, rfl⟩) h
  next hopc => exact decodeSC_sound hopc (fun _ _ => ⟨rfl, rfl⟩) h
  next hopc => exact decodeD_sound hopc (fun _ => ⟨rfl, rfl⟩) h
  next hopc => exact decodeSC_sound hopc (fun _ _ => ⟨rfl, rfl⟩) h
  next hopc => exact decodeD_sound hopc (fun _ => ⟨rfl, rfl⟩) h
  next => cases h

/-- OPC of a command's word is the command's operation code (R90). -/
theorem opcField_encode (i : Instr) : opcField (encode i) = i.opcode :=
  match i with
  | .zero rd => Laws.OpcodeField.zero rd
  | .one rd => Laws.OpcodeField.one rd
  | .mov rd rs1 => Laws.OpcodeField.mov rd rs1
  | .canon rd rs1 => Laws.OpcodeField.canon rd rs1
  | .iszero rs1 => Laws.OpcodeField.iszero rs1
  | .isone rs1 => Laws.OpcodeField.isone rs1
  | .trace rs1 => Laws.OpcodeField.trace rs1
  | .add rd rs1 rs2 => Laws.OpcodeField.add rd rs1 rs2
  | .sqr rd rs1 => Laws.OpcodeField.sqr rd rs1
  | .mul rd rs1 rs2 => Laws.OpcodeField.mul rd rs1 rs2
  | .pow rd rs1 rs2 => Laws.OpcodeField.pow rd rs1 rs2
  | .inv rd rs1 => Laws.OpcodeField.inv rd rs1
  | .tobin rs1 cap => Laws.OpcodeField.tobin rs1 cap
  | .frombin rd => Laws.OpcodeField.frombin rd
  | .tohex rs1 cap => Laws.OpcodeField.tohex rs1 cap
  | .fromhex rd => Laws.OpcodeField.fromhex rd

theorem opcField_of_decode (h : decode cw = .ok i) : opcField cw = i.opcode := by
  rw [← (decode_sound h).2, opcField_encode]

/-- Settles O1: the operation code selects the row, and its format reads the operands back. -/
theorem decodeEncodeRoundTrip : Obligations.DecodeEncodeRoundTrip := fun _ => decode_encode

/-- Settles O2: the format's checks leave only the bits that the operands hold. -/
theorem legalWordIsItsEncoding : Obligations.LegalWordIsItsEncoding := fun _ _ => decode_sound

-- The masks select the words their formats accept (R94)

/-- A used register field is legal exactly when its top bit is clear (R86). -/
theorem exists_readReg_iff (f : BitVec 4) : (∃ r, readReg f = .ok r) ↔ f &&& 8 = 0 := by
  revert f
  decide

theorem rowMatch_eq_packWord (opc : BitVec 8) : rowMatch opc = packWord opc (0 : Reg) (0 : Reg) (0 : Reg) 0 := by
  simp [rowMatch, packWord]

/-- A masked word equals `OPC << 24` exactly when its operation code is OPC and its other fields are zero under the mask's. -/
theorem and_eq_rowMatch_iff {opc : BitVec 8} {m : Word} {md ms mt : BitVec 4} {mh : BitVec 2} {mc : Cap}
    (hopc : opcField m = .allOnes 8) (hd : rdField m = md) (hs : rs1Field m = ms) (ht : rs2Field m = mt)
    (hh : immHighField m = mh) (hc : capField m = mc) :
    cw &&& m = rowMatch opc ↔ opcField cw = opc ∧ rdField cw &&& md = 0 ∧ rs1Field cw &&& ms = 0 ∧
      rs2Field cw &&& mt = 0 ∧ immHighField cw &&& mh = 0 ∧ capField cw &&& mc = 0 := by
  subst hd hs ht hh hc
  have hopcode : opcField cw = opcField (cw &&& m) := by
    rw [← BitVec.and_allOnes (x := opcField cw), ← hopc]
    exact BitVec.extractLsb'_and.symm
  have hfields : rdField (cw &&& m) = rdField cw &&& rdField m ∧ rs1Field (cw &&& m) = rs1Field cw &&& rs1Field m ∧
      rs2Field (cw &&& m) = rs2Field cw &&& rs2Field m ∧
      immHighField (cw &&& m) = immHighField cw &&& immHighField m ∧
      capField (cw &&& m) = capField cw &&& capField m :=
    ⟨BitVec.extractLsb'_and, BitVec.extractLsb'_and, BitVec.extractLsb'_and, BitVec.extractLsb'_and,
      BitVec.extractLsb'_and⟩
  obtain ⟨hd, hs, ht, hh, hc⟩ := hfields
  rw [hopcode, ← hd, ← hs, ← ht, ← hh, ← hc, rowMatch_eq_packWord]
  constructor
  · intro h
    rw [h]
    exact ⟨opcField_packWord _ _ (by decide) (by decide) (by decide), rdField_packWord _ _ (by decide) (by decide),
      rs1Field_packWord _ _ (by decide), rs2Field_packWord _ _ _ _ _, immHighField_packWord _ _ _ _ _,
      capField_packWord _ _ _ _ _⟩
  · rintro ⟨hopc', hd', hs', ht', hh', hc'⟩
    exact (packWord_eq_of_fields hopc' hd' hs' ht' hh' hc').symm

theorem and_maskD_iff (opc : BitVec 8) (k : Reg → Instr) :
    cw &&& 0xFF8FFFFF = rowMatch opc ↔ opcField cw = opc ∧ ∃ i, decodeD k cw = .ok i := by
  rw [and_eq_rowMatch_iff (md := 8) (ms := .allOnes 4) (mt := .allOnes 4) (mh := .allOnes 2) (mc := .allOnes 10)
    rfl rfl rfl rfl rfl rfl]
  simp only [BitVec.and_allOnes, decodeD_eq_ok_iff, immField_eq_zero_iff, ← exists_readReg_iff]
  constructor
  · rintro ⟨hopc, ⟨d, hd⟩, hzero⟩
    exact ⟨hopc, k d, hzero, d, hd, rfl⟩
  · rintro ⟨hopc, _, hzero, d, hd, -⟩
    exact ⟨hopc, ⟨d, hd⟩, hzero⟩

theorem and_maskDS_iff (opc : BitVec 8) (k : Reg → Reg → Instr) :
    cw &&& 0xFF88FFFF = rowMatch opc ↔ opcField cw = opc ∧ ∃ i, decodeDS k cw = .ok i := by
  rw [and_eq_rowMatch_iff (md := 8) (ms := 8) (mt := .allOnes 4) (mh := .allOnes 2) (mc := .allOnes 10)
    rfl rfl rfl rfl rfl rfl]
  simp only [BitVec.and_allOnes, decodeDS_eq_ok_iff, immField_eq_zero_iff, ← exists_readReg_iff]
  constructor
  · rintro ⟨hopc, ⟨d, hd⟩, ⟨s, hs⟩, hzero⟩
    exact ⟨hopc, k d s, hzero, d, s, hd, hs, rfl⟩
  · rintro ⟨hopc, _, hzero, d, s, hd, hs, -⟩
    exact ⟨hopc, ⟨d, hd⟩, ⟨s, hs⟩, hzero⟩

theorem and_maskDSS_iff (opc : BitVec 8) (k : Reg → Reg → Reg → Instr) :
    cw &&& 0xFF888FFF = rowMatch opc ↔ opcField cw = opc ∧ ∃ i, decodeDSS k cw = .ok i := by
  rw [and_eq_rowMatch_iff (md := 8) (ms := 8) (mt := 8) (mh := .allOnes 2) (mc := .allOnes 10)
    rfl rfl rfl rfl rfl rfl]
  simp only [BitVec.and_allOnes, decodeDSS_eq_ok_iff, immField_eq_zero_iff, ← exists_readReg_iff]
  constructor
  · rintro ⟨hopc, ⟨d, hd⟩, ⟨s, hs⟩, ⟨t, ht⟩, hzero⟩
    exact ⟨hopc, k d s t, hzero, d, s, t, hd, hs, ht, rfl⟩
  · rintro ⟨hopc, _, hzero, d, s, t, hd, hs, ht, -⟩
    exact ⟨hopc, ⟨d, hd⟩, ⟨s, hs⟩, ⟨t, ht⟩, hzero⟩

theorem and_maskS_iff (opc : BitVec 8) (k : Reg → Instr) :
    cw &&& 0xFFF8FFFF = rowMatch opc ↔ opcField cw = opc ∧ ∃ i, decodeS k cw = .ok i := by
  rw [and_eq_rowMatch_iff (md := .allOnes 4) (ms := 8) (mt := .allOnes 4) (mh := .allOnes 2) (mc := .allOnes 10)
    rfl rfl rfl rfl rfl rfl]
  simp only [BitVec.and_allOnes, decodeS_eq_ok_iff, immField_eq_zero_iff, ← exists_readReg_iff]
  constructor
  · rintro ⟨hopc, hd, ⟨s, hs⟩, hzero⟩
    exact ⟨hopc, k s, ⟨hd, hzero⟩, s, hs, rfl⟩
  · rintro ⟨hopc, _, ⟨hd, hzero⟩, s, hs, -⟩
    exact ⟨hopc, hd, ⟨s, hs⟩, hzero⟩

/-- The mask of format SC leaves CAP free, so its bound stands beside the match (R87). -/
theorem and_maskSC_iff (opc : BitVec 8) (k : Reg → Cap → Instr) :
    (cw &&& 0xFFF8FC00 = rowMatch opc ∧ (capField cw).toNat ≤ 512) ↔
      opcField cw = opc ∧ ∃ i, decodeSC k cw = .ok i := by
  rw [and_eq_rowMatch_iff (md := .allOnes 4) (ms := 8) (mt := .allOnes 4) (mh := .allOnes 2) (mc := 0)
    rfl rfl rfl rfl rfl rfl, ← capLegal_iff]
  simp only [BitVec.and_allOnes, decodeSC_eq_ok_iff, ← exists_readReg_iff]
  constructor
  · rintro ⟨⟨hopc, hd, ⟨s, hs⟩, ht, hh, -⟩, hlegal⟩
    exact ⟨hopc, k s (capField cw), ⟨hd, ht, hh⟩, hlegal, s, hs, rfl⟩
  · rintro ⟨hopc, _, ⟨hd, ht, hh⟩, hlegal, s, hs, -⟩
    exact ⟨⟨hopc, hd, ⟨s, hs⟩, ht, hh, BitVec.and_zero⟩, hlegal⟩

-- The rows (R83, R94)

/-- The decoder gives a command of a row exactly for the words of its operation code that the row's format accepts. -/
theorem decode_opcode_iff {opc : BitVec 8} {dec : Word → Except DecodeError Instr}
    (hdec : opcField cw = opc → decode cw = dec cw) :
    (∃ i, decode cw = .ok i ∧ i.opcode = opc) ↔ opcField cw = opc ∧ ∃ i, dec cw = .ok i := by
  constructor
  · rintro ⟨i, hi, hop⟩
    have hopc : opcField cw = opc := (opcField_of_decode hi).trans hop
    exact ⟨hopc, i, hdec hopc ▸ hi⟩
  · rintro ⟨hopc, i, hi⟩
    rw [← hdec hopc] at hi
    exact ⟨i, hi, (opcField_of_decode hi).symm.trans hopc⟩

/-- A row whose mask settles its format asks nothing more; that `decode` runs the row's format is computed where a row is named. -/
theorem row_selects {opc : BitVec 8} {m : Word} {dec : Word → Except DecodeError Instr}
    (hmask : cw &&& m = rowMatch opc ↔ opcField cw = opc ∧ ∃ i, dec cw = .ok i)
    (hdec : opcField cw = opc → decode cw = dec cw := by intro h; rw [decode, h]; rfl) :
    (∃ i, decode cw = .ok i ∧ i.opcode = opc) ↔
      (cw &&& m = rowMatch opc ∧ (false = true → (capField cw).toNat ≤ 512)) := by
  rw [decode_opcode_iff hdec, ← hmask]
  exact (and_iff_left Bool.noConfusion).symm

/-- A row of format SC asks for the capacity besides. -/
theorem row_selectsSC {opc : BitVec 8} (k : Reg → Cap → Instr)
    (hdec : opcField cw = opc → decode cw = decodeSC k cw := by intro h; rw [decode, h]; rfl) :
    (∃ i, decode cw = .ok i ∧ i.opcode = opc) ↔
      (cw &&& 0xFFF8FC00 = rowMatch opc ∧ (true = true → (capField cw).toNat ≤ 512)) := by
  rw [decode_opcode_iff hdec, ← and_maskSC_iff, forall_prop_of_true rfl]

theorem decode_selects (cw : Word) : ∀ row ∈ encodingRows,
    (∃ i, decode cw = .ok i ∧ i.opcode = row.1) ↔
      (cw &&& row.2.1 = rowMatch row.1 ∧ (row.2.2 = true → (capField cw).toNat ≤ 512)) := by
  exact List.forall_iff_forall_mem.mp ⟨row_selects (and_maskD_iff _ .zero),
    row_selects (and_maskD_iff _ .one),
    row_selects (and_maskDS_iff _ .mov),
    row_selects (and_maskDS_iff _ .canon),
    row_selects (and_maskS_iff _ .iszero),
    row_selects (and_maskS_iff _ .isone),
    row_selects (and_maskS_iff _ .trace),
    row_selects (and_maskDSS_iff _ .add),
    row_selects (and_maskDS_iff _ .sqr),
    row_selects (and_maskDSS_iff _ .mul),
    row_selects (and_maskDSS_iff _ .pow),
    row_selects (and_maskDS_iff _ .inv),
    row_selectsSC .tobin,
    row_selects (and_maskD_iff _ .frombin),
    row_selectsSC .tohex,
    row_selects (and_maskD_iff _ .fromhex)⟩

theorem exists_row (i : Instr) : ∃ row ∈ encodingRows, row.1 = i.opcode := by
  cases i <;> simp [encodingRows, Instr.opcode]

theorem row_eq_of_opcode : ∀ row ∈ encodingRows, ∀ row' ∈ encodingRows, row.1 = row'.1 → row = row' :=
  List.inj_on_of_nodup_map (by decide)

theorem mask_opcode : ∀ row ∈ encodingRows, opcField row.2.1 = .allOnes 8 := by
  simp [encodingRows, opcField]

/-- A word that matches a row has the row's operation code. -/
theorem opcField_of_match {row : BitVec 8 × Word × Bool} (hrow : row ∈ encodingRows)
    (h : cw &&& row.2.1 = rowMatch row.1) : opcField cw = row.1 :=
  ((and_eq_rowMatch_iff (mask_opcode row hrow) rfl rfl rfl rfl rfl).mp h).1

theorem decode_error_of_no_match (h : ∀ row ∈ encodingRows, cw &&& row.2.1 ≠ rowMatch row.1) :
    ∃ e, decode cw = .error e := by
  cases hdec : decode cw with
  | error e => exact ⟨e, rfl⟩
  | ok i =>
    obtain ⟨row, hrow, hop⟩ := exists_row i
    exact absurd ((decode_selects cw row hrow).mp ⟨i, hdec, hop.symm⟩).1 (h row hrow)

/-- Settles O3: a row's mask tests what its format tests, every accepted word has the operation code of its command, and no two rows share one. -/
theorem matchAndMaskSelect : Obligations.MatchAndMaskSelect :=
  ⟨fun row hrow cw => decode_selects cw row hrow, fun _ => decode_error_of_no_match,
    fun _ row hrow row' hrow' h h' =>
      row_eq_of_opcode row hrow row' hrow' ((opcField_of_match hrow h).symm.trans (opcField_of_match hrow' h'))⟩

-- The spec's own words

/-- Settles O4, by evaluating the decoder on each word. -/
theorem specWordsDecode : Obligations.SpecWordsDecode := by
  unfold Obligations.SpecWordsDecode
  decide

end Sys2Proof
end

section
/-! PROOFS. The bit-vector core by words and by positions, and its two commands MOV and CANON (40_bitvector_core.md, R110 to R117). -/

namespace Sys2Proof

-- The command word as an integer (R90)

/-- The fields of a packed word do not overlap, so the word is their weighted sum. -/
theorem toNat_packWord (opc : BitVec 8) (d s t : Reg) (cap : Cap) :
    (packWord opc d s t cap).toNat =
      0x1000000 * opc.toNat + 0x100000 * d.val + 0x10000 * s.val + 0x1000 * t.val + cap.toNat := by
  have hopc := opcField_packWord opc cap d.isLt s.isLt t.isLt
  have hd := rdField_packWord opc (d := d) cap s.isLt t.isLt
  have hs := rs1Field_packWord opc (d := d) (s := s) cap t.isLt
  have ht := rs2Field_packWord opc d s t cap
  have hhigh := immHighField_packWord opc d s t cap
  have hcap := capField_packWord opc d s t cap
  simp only [opcField, rdField, rs1Field, rs2Field, immHighField, capField, ← BitVec.toNat_inj, toNat_field,
    BitVec.toNat_ofNat, BitVec.ofNat_eq_ofNat] at hopc hd hs ht hhigh hcap
  omega

end Sys2Proof

namespace Sys2Proof.Machine

-- How a command ends (R84, R266)

/-- While FATAL = 1 every command ends with TableFatal (R84, R170). -/
theorem exec_fatal (i : Instr) {s : State} (hf : s.fatal = true) : exec i s = .next (s.complete .tableFatal) := by
  cases i <;> exact command_fatal hf

theorem failsWith_of_exec {i : Instr} {s : State} {k : ErrKind} (h : exec i s = .next (s.complete k)) :
    failsWith i s k := ⟨_, h, ⟨rfl, rfl⟩, s.unchanged_complete k⟩

theorem failsWith_tableFatal (i : Instr) {s : State} (hf : s.fatal = true) : failsWith i s .tableFatal :=
  failsWith_of_exec (exec_fatal i hf)

/-- A command that writes one register and succeeds leaves all else but ERR and BUSY. -/
theorem State.onlyElem_setElem_complete (s : State) (d : Reg) (v : Elem) (k : ErrKind) :
    s.onlyElem ((s.setElem d v).complete k) d :=
  ⟨fun r hr => State.elem_setElem_ne s d r v hr, fun _ => rfl, rfl, ⟨rfl, rfl⟩, rfl, rfl, rfl, rfl, rfl⟩

/-- MOV checks no source (R116). -/
theorem exec_mov {s : State} (hf : s.fatal = false) (d a : Reg) :
    exec (.mov d a) s = .next ((s.setElem d (s.elem a)).complete .ok) := command_runs hf (by simp)

/-- CANON checks no source (R117). -/
theorem exec_canon {s : State} (hf : s.fatal = false) (d a : Reg) :
    exec (.canon d a) s = .next ((s.setElem d (canonicalize (s.elem a))).complete .ok) := command_runs hf (by simp)

/-- Settles O26: MOV writes the source's 320 bits to the destination. -/
theorem movCommand : Obligations.MovCommand := by
  refine fun d a s => ⟨?_, fun hf => ?_, failsWith_tableFatal _⟩
  · exact (toNat_packWord 0x03 d a 0 0).trans (by simp)
  · exact ⟨_, exec_mov hf d a, ⟨rfl, rfl⟩, State.elem_setElem_self s d _, s.onlyElem_setElem_complete d _ _⟩

-- `canonicalize` and `is_canonical` by words (R112, R113)

/-- The mask keeps bits 0 to 4, the valid positions of word 9 (R115). -/
theorem getLsbD_validMask (n : Nat) : (0x0000001F : Word).getLsbD n = decide (n < 5) := by
  rw [show (0x0000001F : Word) = (BitVec.allOnes 5).setWidth 32 by decide, BitVec.getLsbD_setWidth,
    BitVec.getLsbD_allOnes, ← Bool.decide_and]
  exact decide_eq_decide.mpr (by omega)

/-- Words 0 to 8 hold valid positions only, word 9 holds positions 288 to 292 in bits 0 to 4 (R112, R115). -/
theorem elemWord_canonicalize (x : Elem) (k : WordIdx) :
    elemWord (canonicalize x) k = if k = 9 then elemWord x 9 &&& 0x0000001F else elemWord x k := by
  apply BitVec.eq_of_getLsbD_eq
  intro n hn
  rw [getLsbD_elemWord, getLsbD_canonicalize]
  by_cases hk : k = 9
  · subst hk
    have hvalid : 288 + n < 293 ↔ n < 5 := by omega
    rw [if_pos rfl, BitVec.getLsbD_and, getLsbD_elemWord, getLsbD_validMask]
    simp [hn, hvalid, Bool.and_comm]
  · have hk9 : k.val ≠ 9 := fun h => hk (Fin.ext h)
    have hvalid : 32 * k.val + n < 293 := by omega
    rw [if_neg hk, getLsbD_elemWord]
    simp [hvalid]

theorem canonicalize_xor (a b : Elem) : canonicalize (a ^^^ b) = canonicalize a ^^^ canonicalize b := by
  simp only [canonicalize, BitVec.setWidth_xor]

/-- A mask keeps a word exactly when the opposite mask clears it. -/
theorem and_eq_self_iff_and_not_eq_zero (w m : Word) : w &&& m = w ↔ w &&& ~~~m = 0 := by
  have hdiff : (w &&& m) ^^^ w = w &&& ~~~m := by
    apply BitVec.eq_of_getLsbD_eq
    intro n hn
    simp only [BitVec.getLsbD_xor, BitVec.getLsbD_and, BitVec.getLsbD_not, hn, decide_true, Bool.true_and]
    cases w.getLsbD n <;> simp
  rw [← hdiff]
  exact BitVec.xor_eq_zero_iff.symm

/-- Canonical is: the top 27 bits of word 9 are zero (R113). -/
theorem isCanonical_iff_elemWord (x : Elem) : isCanonical x = true ↔ elemWord x 9 &&& 0xFFFFFFE0 = 0 := by
  rw [isCanonical_iff, show (0xFFFFFFE0 : Word) = ~~~0x0000001F by decide, ← and_eq_self_iff_and_not_eq_zero]
  constructor
  · intro h
    have h9 := elemWord_canonicalize x 9
    rw [h, if_pos rfl] at h9
    exact h9.symm
  · intro h
    apply eq_of_elemWord_eq
    intro k
    rw [elemWord_canonicalize, h]
    by_cases hk : k = 9
    · rw [if_pos hk, hk]
    · rw [if_neg hk]

/-- Settles O57: `canonicalize` clears the excess positions, all of them in word 9, and is a change of width and back. -/
theorem canonicalForm : Obligations.CanonicalForm :=
  ⟨elemWord_canonicalize, fun x => ⟨canonicalize_canonicalize x, isCanonical_canonicalize x⟩,
    fun x => (isCanonical_iff x).mp, canonicalize_xor,
    fun x => ⟨isCanonical_iff_elemWord x, isCanonical_iff_toNat x⟩⟩

/-- Settles O27: CANON writes `canonicalize` of the source to the destination. -/
theorem canonCommand : Obligations.CanonCommand := by
  refine fun d a s => ⟨?_, fun hf => ?_, failsWith_tableFatal _⟩
  · exact (toNat_packWord 0x04 d a 0 0).trans (by simp)
  · have hd : ((s.setElem d (canonicalize (s.elem a))).complete .ok).elem d = canonicalize (s.elem a) :=
      State.elem_setElem_self s d _
    refine ⟨_, exec_canon hf d a, ⟨rfl, rfl⟩, ?_, ?_, s.onlyElem_setElem_complete d _ _⟩
    · rw [hd]
      exact elemWord_canonicalize (s.elem a)
    · rw [hd]
      exact isCanonical_canonicalize (s.elem a)

-- `get_bit` and `set_bit` by words (R110, R111)

/-- Position i is bit `i mod 32` of word `i div 32` (R12). -/
theorem getBit_eq_getLsbD_elemWord (x : Elem) {i : Pos} {k : WordIdx} (hk : k.val = i.val / 32) :
    getBit x i = (elemWord x k).getLsbD (i.val % 32) := by
  rw [getLsbD_elemWord, hk, Nat.div_add_mod, getBit]
  simp [Nat.mod_lt]

/-- Shifting a bit down to position 0 and masking it reads it. -/
theorem shiftRight_and_one_beq_one (w : Word) (n : Nat) : ((w >>> n) &&& 1#32 == 1#32) = w.getLsbD n := by
  rw [BitVec.and_one_eq_setWidth_ofBool_getLsbD, BitVec.getLsbD_ushiftRight, Nat.add_zero]
  cases w.getLsbD n <;> rfl

theorem elemWord_setBit (x : Elem) (i : Pos) (k : WordIdx) :
    elemWord (setBit x i) k =
      if k.val = i.val / 32 then elemWord x k ||| (1#32 <<< (i.val % 32)) else elemWord x k := by
  apply BitVec.eq_of_getLsbD_eq
  intro n hn
  rw [getLsbD_elemWord, getLsbD_setBit]
  split
  · have hpos : 32 * k.val + n = i.val ↔ i.val % 32 = n := by omega
    rw [← BitVec.twoPow_eq, BitVec.getLsbD_or, BitVec.getLsbD_twoPow, getLsbD_elemWord]
    simp [hn, hpos, Nat.mod_lt]
  · have hpos : 32 * k.val + n ≠ i.val := by omega
    rw [getLsbD_elemWord]
    simp [hpos]

/-- Setting a bit that is already 1 changes nothing (R111). -/
theorem setBit_of_getBit {x : Elem} {i : Pos} (h : getBit x i = true) : setBit x i = x := by
  apply BitVec.eq_of_getLsbD_eq
  intro n _
  rw [getLsbD_setBit]
  by_cases hn : n = i.val
  · rw [hn, show x.getLsbD i.val = true from h, Bool.true_or]
  · simp [hn]

/-- Settles O58: position i is bit `i mod 32` of word `i div 32`, and `set_bit` writes no other. -/
theorem getAndSetBit : Obligations.GetAndSetBit :=
  ⟨fun x _ _ hk => (getBit_eq_getLsbD_elemWord x hk).trans (shiftRight_and_one_beq_one _ _).symm, elemWord_setBit,
    fun _ _ => setBit_of_getBit, fun _ i => isCanonical_setBit i⟩

end Sys2Proof.Machine
end

section
/-! PROOFS. Constants, comparison and addition (41_additive_compare.md, R130 to R137): the words of the constants and of a sum, and the commands ZERO, ONE, ISZERO, ISONE and ADD. -/

namespace Sys2Proof.Machine

-- Elements by words (R12)

theorem eq_iff_elemWord (x y : Elem) : x = y ↔ ∀ k, elemWord x k = elemWord y k :=
  ⟨fun h _ => h ▸ rfl, eq_of_elemWord_eq⟩

/-- All ten words of ZERO_V are 0 (R137). -/
theorem elemWord_zeroV (k : WordIdx) : elemWord zeroV k = 0 := BitVec.extractLsb'_zero

/-- A full register holds ten full words. -/
theorem elemWord_allOnes (k : WordIdx) : elemWord (BitVec.allOnes 320) k = 0xFFFFFFFF := by
  have hk := k.isLt
  rw [show (0xFFFFFFFF : Word) = BitVec.allOnes 32 by decide]
  apply BitVec.eq_of_getLsbD_eq
  intro n hn
  rw [getLsbD_elemWord, BitVec.getLsbD_allOnes, BitVec.getLsbD_allOnes, ← Bool.decide_and]
  exact decide_eq_decide.mpr (by omega)

/-- The words of ONE_V: those of a full register, word 9 cut to its five valid positions (R137, R115). -/
theorem elemWord_oneV (k : WordIdx) : elemWord oneV k = if k = 9 then 0x0000001F else 0xFFFFFFFF := by
  rw [oneV, elemWord_canonicalize, elemWord_allOnes, elemWord_allOnes]
  rfl

/-- Addition is word by word (R134). -/
theorem elemWord_add (a b : Elem) (k : WordIdx) : elemWord (add a b) k = elemWord a k ^^^ elemWord b k :=
  BitVec.extractLsb'_xor

-- Laws of addition (R136)

protected theorem add_zeroV (a : Elem) : add a zeroV = a := BitVec.xor_zero

protected theorem add_self (a : Elem) : add a a = zeroV := BitVec.xor_self

protected theorem add_comm (a b : Elem) : add a b = add b a := BitVec.xor_comm a b

protected theorem add_assoc (a b c : Elem) : add (add a b) c = add a (add b c) := BitVec.xor_assoc a b c

/-- Addition is its own inverse. -/
theorem add_add_cancel (a b : Elem) : add (add a b) b = a := by
  rw [Machine.add_assoc, Machine.add_self, Machine.add_zeroV]

/-- Settles O44: addition is exclusive-or, and none of its laws needs a canonical operand. -/
theorem additionLaws : Obligations.AdditionLaws := fun a b c _ _ _ =>
  ⟨Machine.add_zeroV a, Machine.add_self a, Machine.add_comm a b, Machine.add_assoc a b c, add_add_cancel a b⟩

-- How a checked command fails, and the frame of one that answers in RESULT

/-- A command that checks a non-canonical source ends with NonCanonical (R84 step 3, R268). -/
theorem failsWith_nonCanonical {i : Instr} {s : State} {srcs : List Reg} {body : Result} {r : Reg}
    (hexec : exec i s = command s true srcs body) (hf : s.fatal = false) (hr : r ∈ srcs)
    (hn : isCanonical (s.elem r) = false) : failsWith i s .nonCanonical :=
  failsWith_of_exec (hexec.trans (command_nonCanonical hf hr hn))

/-- A command that writes RESULT and succeeds leaves all else but ERR and BUSY. -/
theorem State.onlyResult_setResult_complete (s : State) (v : Word) (k : ErrKind) :
    s.onlyResult ((s.setResult v).complete k) :=
  ⟨fun _ => rfl, fun _ => rfl, ⟨rfl, rfl⟩, rfl, rfl, rfl, rfl, rfl⟩

-- ZERO and ONE (R130, R131)

theorem exec_zero {s : State} (hf : s.fatal = false) (d : Reg) :
    exec (.zero d) s = .next ((s.setElem d zeroV).complete .ok) := command_runs hf (by simp)

theorem exec_one {s : State} (hf : s.fatal = false) (d : Reg) :
    exec (.one d) s = .next ((s.setElem d oneV).complete .ok) := command_runs hf (by simp)

/-- Settles O24: ZERO writes ZERO_V to the destination, whatever it held. -/
theorem zeroCommand : Obligations.ZeroCommand := by
  refine fun d s => ⟨?_, fun hf => ?_, failsWith_tableFatal _⟩
  · exact (toNat_packWord 0x01 d 0 0 0).trans (by simp)
  · refine ⟨_, exec_zero hf d, ⟨rfl, rfl⟩, fun k => ?_, s.onlyElem_setElem_complete d _ _⟩
    rw [State.elem_complete, State.elem_setElem_self, elemWord_zeroV]

/-- Settles O25: ONE writes ONE_V to the destination. -/
theorem oneCommand : Obligations.OneCommand := by
  refine fun d s => ⟨?_, fun hf => ?_, failsWith_tableFatal _⟩
  · exact (toNat_packWord 0x02 d 0 0 0).trans (by simp)
  · refine ⟨_, exec_one hf d, ⟨rfl, rfl⟩, fun k => ?_, s.onlyElem_setElem_complete d _ _⟩
    rw [State.elem_complete, State.elem_setElem_self, elemWord_oneV]

-- ISZERO and ISONE (R132, R133)

/-- RESULT of a comparison is 1 exactly when the ten words agree (R27, R132). -/
theorem boolWord_beq (x y : Elem) :
    boolWord (x == y) = if ∀ k, elemWord x k = elemWord y k then 1 else 0 := by
  simp only [boolWord, beq_iff_eq, eq_iff_elemWord]

theorem exec_iszero {s : State} (hf : s.fatal = false) {a : Reg} (ha : isCanonical (s.elem a) = true) :
    exec (.iszero a) s = .next ((s.setResult (boolWord (s.elem a == zeroV))).complete .ok) :=
  command_runs hf (by simpa using ha)

theorem exec_isone {s : State} (hf : s.fatal = false) {a : Reg} (ha : isCanonical (s.elem a) = true) :
    exec (.isone a) s = .next ((s.setResult (boolWord (s.elem a == oneV))).complete .ok) :=
  command_runs hf (by simpa using ha)

/-- Settles O28: ISZERO compares its source with ZERO_V, all of whose words are 0. -/
theorem iszeroCommand : Obligations.IszeroCommand := by
  refine fun a s => ⟨?_, fun hf ha => ?_, fun hf => ?_, failsWith_tableFatal _⟩
  · exact (toNat_packWord 0x08 0 a 0 0).trans (by simp)
  · refine ⟨_, exec_iszero hf ha, ⟨rfl, rfl⟩, ?_, s.onlyResult_setResult_complete _ _⟩
    simp only [State.complete_result, State.setResult_result, boolWord_beq, elemWord_zeroV]
  · exact failsWith_nonCanonical rfl hf (List.mem_singleton_self a)

/-- Settles O29: ISONE compares its source with ONE_V, once the source is known to be canonical. -/
theorem isoneCommand : Obligations.IsoneCommand := by
  refine fun a s => ⟨?_, fun hf ha => ?_, fun hf => ?_, failsWith_tableFatal _⟩
  · exact (toNat_packWord 0x09 0 a 0 0).trans (by simp)
  · refine ⟨_, exec_isone hf ha, ⟨rfl, rfl⟩, ?_, s.onlyResult_setResult_complete _ _⟩
    simp only [State.complete_result, State.setResult_result, boolWord_beq, elemWord_oneV]
  · exact failsWith_nonCanonical rfl hf (List.mem_singleton_self a)

-- ADD (R135)

theorem exec_add {s : State} (hf : s.fatal = false) (d : Reg) {a b : Reg} (ha : isCanonical (s.elem a) = true)
    (hb : isCanonical (s.elem b) = true) :
    exec (.add d a b) s = .next ((s.setElem d (add (s.elem a) (s.elem b))).complete .ok) :=
  command_runs hf (by simpa using ⟨ha, hb⟩)

/-- Settles O31: ADD writes the sum of the sources as they were, also where the destination is one of them. -/
theorem addCommand : Obligations.AddCommand := by
  refine fun d a b s => ⟨?_, fun hf ha hb => ?_, fun hf h => ?_, failsWith_tableFatal _⟩
  · exact (toNat_packWord 0x10 d a b 0).trans (by simp)
  · refine ⟨_, exec_add hf d ha hb, ⟨rfl, rfl⟩, fun k => ?_, s.onlyElem_setElem_complete d _ _⟩
    rw [State.elem_complete, State.elem_setElem_self, elemWord_add]
  · obtain hn | hn := h <;> exact failsWith_nonCanonical rfl hf (by simp) hn

end Sys2Proof.Machine
end

section
/-! PROOFS. Squaring (42_squaring.md, R150 to R154): `sqr` as a rotation of positions and as an integer function, the command SQR, the laws of squaring, and the trace as the parity of the number of one bits (R210). -/

namespace Sys2Proof.Machine

-- `sqr` as a rotation of positions (R150)

/-- Position j moves to position j + 1, wrapping at 293. -/
theorem getLsbD_sqr_add_one (x : Elem) {j : Nat} (hj : j < 293) :
    (sqr x).getLsbD ((j + 1) % 293) = x.getLsbD j := by
  have hmove : getBit (sqr x) (⟨j, hj⟩ + 1) = getBit x ⟨j, hj⟩ := by rw [getBit_sqr, add_sub_cancel_right]
  exact hmove

/-- R150 read at the destination: position 0, positions 1 to 292, the excess positions. -/
theorem sqr_rotates (x : Elem) :
    (sqr x).getLsbD 0 = x.getLsbD 292 ∧ (∀ i, 1 ≤ i → i ≤ 292 → (sqr x).getLsbD i = x.getLsbD (i - 1)) ∧
      ∀ i, 293 ≤ i → (sqr x).getLsbD i = false := by
  refine ⟨getLsbD_sqr_add_one x (j := 292) (by decide), fun i hlo hhi => ?_,
    (isCanonical_iff_excess _).mp (isCanonical_sqr x)⟩
  have hmove := getLsbD_sqr_add_one x (j := i - 1) (by omega)
  rwa [Nat.sub_add_cancel hlo, Nat.mod_eq_of_lt (by omega)] at hmove

-- `sqr` as an integer function (R150, R152)

/-- What is left of a canonical element above position 291 is its top position. -/
theorem toNat_div_of_isCanonical {x : Elem} (hx : isCanonical x = true) :
    x.toNat / 2 ^ 292 = (getBit x 292).toNat := by
  have hlt := (isCanonical_iff_toNat x).mp hx
  have hbit : getBit x 292 = x.toNat.testBit 292 := rfl
  rw [hbit, Nat.toNat_testBit]
  omega

theorem toNat_setBit_zero (x : Elem) : (setBit x 0).toNat = x.toNat ||| 1 := by
  rw [setBit, BitVec.toNat_or, Fin.val_zero, BitVec.shiftLeft_zero, BitVec.toNat_one (by decide)]

theorem toNat_canonicalize_shiftLeft_one (x : Elem) : (canonicalize (x <<< 1)).toNat = x.toNat * 2 % 2 ^ 293 := by
  rw [toNat_canonicalize, BitVec.toNat_shiftLeft, Nat.shiftLeft_eq]
  omega

/-- The captured top position is the bit that the shift by 292 leaves. -/
theorem toNat_sqr {x : Elem} (hx : isCanonical x = true) :
    (sqr x).toNat = (x.toNat * 2 % 2 ^ 293) ||| (x.toNat / 2 ^ 292) := by
  rw [toNat_div_of_isCanonical hx, ← toNat_canonicalize_shiftLeft_one, sqr]
  cases getBit x 292 with
  | false => exact (Nat.or_zero _).symm
  | true => exact toNat_setBit_zero _

/-- Settles O42: the word-level algorithm moves every valid position up by one. -/
theorem sqrIsRotation : Obligations.SqrIsRotation := fun x hx => ⟨toNat_sqr hx, sqr_rotates x⟩

-- SQR (R151)

theorem exec_sqr {s : State} (hf : s.fatal = false) (d : Reg) {a : Reg} (ha : isCanonical (s.elem a) = true) :
    exec (.sqr d a) s = .next ((s.setElem d (sqr (s.elem a))).complete .ok) :=
  command_runs hf (by simpa using ha)

/-- Settles O32: SQR writes the rotated source to the destination and leaves the table as it is. -/
theorem sqrCommand : Obligations.SqrCommand := by
  refine fun d a s => ⟨?_, fun hf ha => ?_, fun hf => ?_, failsWith_tableFatal _⟩
  · exact (toNat_packWord 0x11 d a 0 0).trans (by simp)
  · obtain ⟨hwrap, hmove, hexcess⟩ := sqr_rotates (s.elem a)
    refine ⟨_, exec_sqr hf d ha, ⟨rfl, rfl⟩, ?_⟩
    rw [State.elem_complete, State.elem_setElem_self]
    exact ⟨hwrap, hmove, hexcess, s.onlyElem_setElem_complete d _ _⟩
  · exact failsWith_nonCanonical rfl hf (List.mem_singleton_self a)

-- Repeated squaring (R154 (a), (b), (e))

theorem isCanonical_iterate_sqr {x : Elem} (hx : isCanonical x = true) (k : Nat) : isCanonical (sqr^[k] x) = true := by
  cases k with
  | zero => exact hx
  | succ k =>
    rw [Function.iterate_succ_apply']
    exact isCanonical_sqr _

/-- k squarings rotate by k positions. -/
theorem getLsbD_iterate_sqr (x : Elem) {i : Nat} (hi : i < 293) (k : Nat) :
    (sqr^[k] x).getLsbD ((i + k) % 293) = x.getLsbD i := by
  induction k with
  | zero => rw [Nat.add_zero, Nat.mod_eq_of_lt hi, Function.iterate_zero_apply]
  | succ k ih =>
    rw [Function.iterate_succ_apply', ← Nat.add_assoc, ← Nat.mod_add_mod,
      getLsbD_sqr_add_one _ (Nat.mod_lt _ (by decide)), ih]

/-- A full turn of the 293 positions is the identity. -/
theorem iterate_sqr_full_turn {x : Elem} (hx : isCanonical x = true) : sqr^[293] x = x :=
  eq_of_getBit_eq (isCanonical_iterate_sqr hx 293) hx fun i => by
    have hmove := getLsbD_iterate_sqr x i.isLt 293
    rwa [Nat.add_mod_right, Nat.mod_eq_of_lt i.isLt] at hmove

/-- 292 further squarings undo one. -/
theorem iterate_sqr_sqr {x : Elem} (hx : isCanonical x = true) : sqr^[292] (sqr x) = x :=
  (Function.iterate_succ_apply sqr 292 x).symm.trans (iterate_sqr_full_turn hx)

/-- The square root of a canonical element is its 292nd iterated square. -/
theorem sqr_iterate_sqr {y : Elem} (hy : isCanonical y = true) : sqr (sqr^[292] y) = y :=
  (Function.iterate_succ_apply' sqr 292 y).symm.trans (iterate_sqr_full_turn hy)

theorem eq_of_sqr_eq {x y : Elem} (hx : isCanonical x = true) (hy : isCanonical y = true) (h : sqr x = sqr y) :
    x = y := by
  rw [← iterate_sqr_sqr hx, h, iterate_sqr_sqr hy]

-- Linearity and the number of one bits (R154 (c), (d))

theorem sqr_add (a b : Elem) : sqr (add a b) = add (sqr a) (sqr b) :=
  eq_of_getBit_eq (isCanonical_sqr _) (isCanonical_add (isCanonical_sqr a) (isCanonical_sqr b)) fun i => by
    simp only [getBit_sqr, getBit_add]

/-- A permutation of the positions does not change how many are set. -/
theorem popcount_sqr (x : Elem) : popcount (sqr x) = popcount x :=
  calc popcount (sqr x) = (List.finRange 293).countP (getBit x ∘ Equiv.subRight (1 : Pos)) :=
        List.countP_congr fun i _ => by rw [getBit_sqr]; rfl
    _ = ((List.finRange 293).map (Equiv.subRight (1 : Pos))).countP (getBit x) := List.countP_map.symm
    _ = popcount x := (Equiv.Perm.map_finRange_perm _).countP_eq _

-- The number of one bits of a vector, and its parity

/-- How many of the bits 0 to n - 1 are set. -/
def onesBelow {w : Nat} (x : BitVec w) (n : Nat) : Nat := Nat.count (fun i => x.getLsbD i = true) n

theorem onesBelow_add {w : Nat} (x : BitVec w) (m n : Nat) :
    onesBelow x (m + n) = onesBelow x m + onesBelow (x >>> m) n := by
  simp only [onesBelow, Nat.count_add, BitVec.getLsbD_ushiftRight]

theorem onesBelow_succ {w : Nat} (x : BitVec w) (n : Nat) :
    onesBelow x (n + 1) = onesBelow x n + (x.getLsbD n).toNat := by
  rw [onesBelow, Nat.count_succ]
  cases x.getLsbD n <;> rfl

@[simp] theorem onesBelow_zero_right {w : Nat} (x : BitVec w) : onesBelow x 0 = 0 := Nat.count_zero _

@[simp] theorem onesBelow_zero_left {w : Nat} (n : Nat) : onesBelow (0#w) n = 0 := by simp [onesBelow]

theorem onesBelow_extractLsb' {w : Nat} (x : BitVec w) (m n : Nat) :
    onesBelow (x.extractLsb' m n) n = onesBelow (x >>> m) n :=
  List.countP_congr fun i hi => by simp [List.mem_range.mp hi]

/-- The parity of an exclusive-or is the exclusive-or of the parities. -/
theorem bodd_onesBelow_xor {w : Nat} (x y : BitVec w) (n : Nat) :
    (onesBelow (x ^^^ y) n).bodd = ((onesBelow x n).bodd ^^ (onesBelow y n).bodd) := by
  induction n with
  | zero => simp
  | succ n ih =>
    simp only [onesBelow_succ, Nat.bodd_add, ih, BitVec.getLsbD_xor]
    cases x.getLsbD n <;> cases y.getLsbD n <;> simp

/-- One step of the binary fold: bits n to 2n - 1 folded onto bits 0 to n - 1 keep the parity. -/
theorem bodd_onesBelow_fold {w : Nat} (x : BitVec w) (n : Nat) :
    (onesBelow (x ^^^ (x >>> n)) n).bodd = (onesBelow x (n + n)).bodd := by
  rw [bodd_onesBelow_xor, onesBelow_add, Nat.bodd_add]

theorem bodd_onesBelow_one {w : Nat} (x : BitVec w) : (onesBelow x 1).bodd = x.getLsbD 0 := by
  rw [onesBelow_succ, onesBelow_zero_right]
  cases x.getLsbD 0 <;> rfl

/-- Exclusive-or of words keeps the parity of the number of their one bits. -/
theorem bodd_onesBelow_foldl_xor (x : Elem) (l : List WordIdx) (f : Word) (n : Nat) :
    (onesBelow (l.foldl (fun f k => f ^^^ elemWord x k) f) n).bodd =
      ((onesBelow f n).bodd ^^ (l.map fun k => onesBelow (elemWord x k) n).sum.bodd) := by
  induction l generalizing f with
  | nil => simp
  | cons k l ih =>
    rw [List.foldl_cons, ih, bodd_onesBelow_xor, List.map_cons, List.sum_cons, Nat.bodd_add, Bool.xor_assoc]

/-- The one bits of a vector, counted word by word. -/
theorem onesBelow_words {w : Nat} (x : BitVec w) (n : Nat) :
    onesBelow x (32 * n) = ∑ k ∈ Finset.range n, onesBelow (x.extractLsb' (32 * k) 32) 32 := by
  induction n with
  | zero => simp
  | succ n ih =>
    rw [Finset.sum_range_succ, ← ih, Nat.mul_succ, onesBelow_add, onesBelow_extractLsb']

theorem onesBelow_elemWord_sum (x : Elem) :
    ((List.finRange 10).map fun k => onesBelow (elemWord x k) 32).sum = onesBelow x 320 :=
  (Fin.sum_univ_def _).symm.trans <|
    (Finset.sum_range fun k => onesBelow (x.extractLsb' (32 * k) 32) 32).symm.trans (onesBelow_words x 10).symm

-- The trace (R210)

/-- The number of one bits of a canonical element, the excess positions counted too. -/
theorem popcount_eq_onesBelow {x : Elem} (hx : isCanonical x = true) : popcount x = onesBelow x 320 := by
  have hexcess : x >>> 293 = 0#320 := by
    apply BitVec.eq_of_getLsbD_eq
    intro i _
    rw [BitVec.getLsbD_ushiftRight, (isCanonical_iff_excess x).mp hx _ (by omega), BitVec.getLsbD_zero]
  have hvalid : popcount x = onesBelow x 293 := by
    rw [onesBelow, Nat.count, ← List.map_coe_finRange_eq_range, List.countP_map]
    exact List.countP_congr fun i _ => by simp [getBit]
  rw [hvalid, onesBelow_add x 293 27, hexcess, onesBelow_zero_left, Nat.add_zero]

/-- The binary fold of the ten words computes the parity of all 320 bits. -/
theorem trace_eq_bodd_onesBelow (x : Elem) : trace x = (onesBelow x 320).bodd := by
  rw [trace, ← bodd_onesBelow_one, bodd_onesBelow_fold _ 1, bodd_onesBelow_fold _ 2, bodd_onesBelow_fold _ 4,
    bodd_onesBelow_fold _ 8, bodd_onesBelow_fold _ 16, bodd_onesBelow_foldl_xor, onesBelow_elemWord_sum]
  simp

/-- R210: the trace of a canonical element is the parity of the number of its one bits. -/
theorem trace_eq_bodd_popcount {x : Elem} (hx : isCanonical x = true) : trace x = (popcount x).bodd := by
  rw [trace_eq_bodd_onesBelow, popcount_eq_onesBelow hx]

theorem trace_sqr {x : Elem} (hx : isCanonical x = true) : trace (sqr x) = trace x := by
  rw [trace_eq_bodd_popcount (isCanonical_sqr x), popcount_sqr, trace_eq_bodd_popcount hx]

/-- Settles O43: all laws follow from `sqr` being the rotation of the 293 positions by one. -/
theorem sqrLaws : Obligations.SqrLaws :=
  ⟨fun _ => iterate_sqr_full_turn, fun _ _ => eq_of_sqr_eq,
    fun y hy => ⟨sqr^[292] y, isCanonical_iterate_sqr hy 292, sqr_iterate_sqr hy⟩,
    fun a b _ _ => sqr_add a b, fun x hx => ⟨popcount_sqr x, trace_sqr hx⟩,
    fun x _ k _ hi => getLsbD_iterate_sqr x hi k⟩

end Sys2Proof.Machine
end

section
/-! PROOFS. The multiplication table (43_mul_table.md): what every step keeps of it, what a failed build does (R166, R170), and T as a set and by its rows (R165, R171). -/

namespace Sys2Proof.Machine

/-- Settles O10: a step is one event of the host or the core's turn, and each keeps the invariant. -/
theorem stepKeepsInv : Obligations.StepKeepsInv := fun _ _ => step_keeps_inv

-- FATAL (R169, R170)

/-- The core step ends with TableFatal while FATAL = 1, whatever the pending word. -/
theorem runPending_fatal {s : State} (hf : s.fatal = true) : runPending s = .next (s.complete .tableFatal) := by
  unfold runPending
  split
  · exact exec_fatal _ hf
  · exact command_fatal hf

theorem State.fatal_of_atCoreTurn {s u : State} (h : s.atCoreTurn u) : u.fatal = s.fatal := by
  rcases h with ⟨_, rfl⟩ | ⟨es, _, rfl⟩ <;> rfl

theorem coreTurn_fatal_of_fatal {s t : State} (hf : s.fatal = true) (h : coreTurn s = .next t) : t.fatal = true := by
  rcases coreTurn_cases s with ⟨_, e⟩ | ⟨_, i, _, e⟩ | ⟨_, _, e⟩ <;> rw [e] at h
  · cases h
    exact hf
  · rw [exec_fatal i hf] at h
    cases h
    exact hf
  · cases h
    exact hf

@[simp] theorem hostRead_fatal (s : State) (off : Offset) : (hostRead s off).fatal = s.fatal := by
  rcases hostRead_cases s off with ⟨d, _, e⟩ | ⟨_, e⟩ <;> rw [e] <;> rfl

@[simp] theorem hostWrite_fatal (s : State) (off : Offset) (d : Word) : (hostWrite s off d).fatal = s.fatal := by
  rcases hostWrite_cases s off d with e | ⟨_, e | ⟨r, k, e⟩ | ⟨j, e⟩⟩ <;> rw [e] <;> rfl

/-- Every step but a reset event keeps FATAL raised (R170). -/
theorem step_fatal_of_fatal {s t : State} (hf : s.fatal = true) (hnoreset : ∀ d es, s.hostIn ≠ .reset d :: es)
    (h : step s = .next t) : t.fatal = true := by
  rcases step_cases s with ⟨_, e⟩ | ⟨ev, es, hin, e⟩ <;> rw [e] at h
  · exact coreTurn_fatal_of_fatal hf h
  · cases ev with
    | read off =>
      cases h
      exact (hostRead_fatal _ off).trans hf
    | write off d =>
      cases h
      exact (hostWrite_fatal _ off d).trans hf
    | coreTurn => exact coreTurn_fatal_of_fatal (s := s.setStream es) hf h
    | reset draw => exact absurd hin (hnoreset draw es)

/-- Settles O8: the core step of a FATAL block is `complete` alone, and only a reset event writes 0 to FATAL. -/
theorem fatalEndsEveryCommand : Obligations.FatalEndsEveryCommand := by
  refine ⟨fun s u hb hf hturn => ?_, fun _ _ => step_fatal_of_fatal⟩
  have hu : u.fatal = true := (State.fatal_of_atCoreTurn hturn).trans hf
  exact ⟨_, (step_eq_runPending hb hturn).trans (runPending_fatal hu), ⟨rfl, rfl⟩, u.unchanged_complete _⟩

-- T as a set (R162, R165)

/-- The doublings modulo 587 are the powers of two modulo 587 (R161). -/
theorem pow2_modEq (k : Nat) : (pow2 k : Int) ≡ 2 ^ k [ZMOD 587] := by
  induction k with
  | zero => rfl
  | succ k ih =>
    calc (pow2 (k + 1) : Int) = 2 * (pow2 k : Int) % 587 := by rw [pow2_succ]; push_cast; rfl
      _ ≡ 2 * (pow2 k : Int) [ZMOD 587] := Int.mod_modEq _ _
      _ ≡ 2 * 2 ^ k [ZMOD 587] := ih.mul_left 2
      _ = 2 ^ (k + 1) := (pow_succ' 2 k).symm

/-- The test of R162 on the powers of two themselves. -/
theorem hit_iff (i j : Pos) : hit i j = true ↔
    ∃ s1 ∈ [(1 : Int), -1], ∃ s2 ∈ [(1 : Int), -1], (s1 * 2 ^ i.val + s2 * 2 ^ j.val) % 587 = 1 := by
  have hmod (s1 s2 : Int) : (s1 * pow2 i + s2 * pow2 j) % 587 = (s1 * 2 ^ i.val + s2 * 2 ^ j.val) % 587 :=
    ((pow2_modEq i).mul_left s1).add ((pow2_modEq j).mul_left s2)
  simp only [hit, norm_eq_emod, hmod, List.any_eq_true, beq_iff_eq]

/-- The double loop of R164 runs over all pairs and keeps those that pass the test. -/
theorem buildPairs_eq_filter :
    buildPairs = (List.finRange 293 ×ˢ List.finRange 293).filter fun p => hit p.1 p.2 := by
  have hrow (i : Pos) (l : List Pos) : (l.filterMap fun j => if hit i j then some (i, j) else none) =
      (l.map fun j => (i, j)).filter fun p => hit p.1 p.2 := by
    rw [← List.filterMap_eq_filter, List.filterMap_map]
    simp [Option.guard]
  simp only [buildPairs, hrow, SProd.sprod, List.product, List.filter_flatMap]

theorem table_nodup : table.Nodup := by
  rw [← buildPairs_eq_table, buildPairs_eq_filter]
  exact ((List.nodup_finRange 293).product (List.nodup_finRange 293)).filter _

/-- Settles O55: the builder's double loop gives T, and the powers of R161 are those of two modulo 587. -/
theorem tableIsHitSet : Obligations.TableIsHitSet :=
  ⟨fun i j => (mem_table (i, j)).trans (hit_iff i j), table_nodup, table_length⟩

-- T by rows and columns (R167, R171)

/-- The test is symmetric in its two positions (R171). -/
theorem hit_symm {i j : Pos} (h : hit i j = true) : hit j i = true := by
  obtain ⟨s1, hs1, s2, hs2, hsum⟩ := (hit_iff i j).mp h
  exact (hit_iff j i).mpr ⟨s2, hs2, s1, hs1, by rwa [add_comm]⟩

theorem mem_table_comm (i j : Pos) : (i, j) ∈ table ↔ (j, i) ∈ table := by
  simp only [mem_table]
  exact ⟨hit_symm, hit_symm⟩

/-- Row i of the listing: the second indices of the pairs that begin with i (R167). -/
def tableRow (i : Pos) : List Pos := tableRows[i]'(i.isLt.trans_le (by decide +kernel))

theorem table_eq_flatMap_rows : table = (List.finRange 293).flatMap fun i => (tableRow i).map fun j => (i, j) := by
  have hzip : (List.finRange 293).zip tableRows = (List.finRange 293).map fun i => (i, tableRow i) :=
    List.ext_getElem (by decide +kernel) fun n _ _ => by simp [tableRow]
  rw [table, hzip, List.flatMap_map]

theorem mem_table_iff_mem_tableRow (i j : Pos) : (i, j) ∈ table ↔ j ∈ tableRow i := by
  simp [table_eq_flatMap_rows]

theorem countP_fst_table (i : Pos) : (table.countP fun p => p.1 = i) = (tableRow i).length := by
  have hrow (k : Pos) : ((tableRow k).map fun j => (k, j)).countP (fun p => p.1 = i) =
      if k = i then (tableRow k).length else 0 := by
    by_cases h : k = i <;> simp [h, List.countP_map, Function.comp_def]
  rw [table_eq_flatMap_rows, List.countP_flatMap]
  simp only [Function.comp_def, hrow]
  rw [← Fin.sum_univ_def, Finset.sum_ite_eq', if_pos (Finset.mem_univ i)]

/-- Exchanging the indices of every pair of T gives T again, in another order. -/
theorem map_swap_table_perm : (table.map Prod.swap).Perm table := by
  refine (List.perm_ext_iff_of_nodup (table_nodup.map Prod.swap_injective) table_nodup).mpr fun (i, j) => ?_
  rw [mem_table_comm]
  simp

/-- Column i has as many members as row i, T being symmetric (R171). -/
theorem countP_snd_table (i : Pos) : (table.countP fun p => p.2 = i) = (tableRow i).length := by
  rw [← countP_fst_table, ← map_swap_table_perm.countP_eq, List.countP_map]
  simp [Function.comp_def]

theorem mem_tableRow_self_iff : ∀ i : Pos, i ∈ tableRow i ↔ i = 292 := by decide +kernel

theorem tableRow_zero : tableRow 0 = [1] := by decide +kernel

theorem tableRow_ne_nil : ∀ i : Pos, tableRow i ≠ [] := by decide +kernel

theorem tableRow_length_of_ne_zero : ∀ i : Pos, i ≠ 0 → (tableRow i).length = 2 := by decide +kernel

/-- Settles O56: T is symmetric because the test is; the rest is read from the rows of its listing. -/
theorem tableStructure : Obligations.TableStructure := by
  refine ⟨mem_table_comm, fun i => ?_, fun j => ?_, fun i hi => ?_, fun i => ?_⟩
  · rw [mem_table_iff_mem_tableRow, mem_tableRow_self_iff]
  · rw [mem_table_iff_mem_tableRow, tableRow_zero, List.mem_singleton]
  · rw [countP_fst_table, countP_snd_table, tableRow_length_of_ne_zero i hi]
    exact ⟨rfl, rfl⟩
  · simpa only [mem_table_iff_mem_tableRow] using List.exists_mem_of_ne_nil _ (tableRow_ne_nil i)

end Sys2Proof.Machine
end

section
/-! PROOFS. Multiplication (44_multiplication.md, R180 to R189): the product by positions over the field of two elements, the command MUL, and the laws of `mul` over T; associativity by the group ring of the integers modulo 587. -/

namespace Sys2Proof.Machine

-- MUL (R168, R182)

/-- An exclusive-or is the parity of the number of its true terms. -/
theorem xorPairs_eq_decide_countP (f : Pair → Bool) (t : List Pair) :
    xorPairs f t = decide (t.countP f % 2 = 1) := by
  induction t with
  | nil => rfl
  | cons p t ih =>
    rw [xorPairs, ih, List.countP_cons]
    cases f p with
    | false => simp
    | true =>
      rw [Bool.true_xor, ← decide_not, if_pos rfl]
      exact decide_eq_decide.mpr (by omega)

/-- R180 with the wrap of the positions written out. -/
theorem getLsbD_mul (tbl : List Pair) (u v : Elem) {i : Nat} (hi : i < 293) :
    (mul tbl u v).getLsbD i = decide ((tbl.countP fun p =>
      u.getLsbD ((i + p.1.val) % 293) && v.getLsbD ((i + p.2.val) % 293)) % 2 = 1) := by
  have hpos := getBit_mul tbl u v ⟨i, hi⟩
  rw [xorPairs_eq_decide_countP] at hpos
  exact hpos

/-- A command that writes one register after the table's first use changes the table only if it uses it, and then leaves T (R168). -/
theorem State.onlyProduct_prepareTable {s : State} (hready : s.tblReady = true → s.tbl = table) (used : Bool) (d : Reg)
    (v : Elem) (k : ErrKind) : s.onlyProduct (((prepareTable s used).setElem d v).complete k) d used := by
  have hother (r : Reg) (hr : r ≠ d) : ((prepareTable s used).setElem d v).elem r = s.elem r :=
    (State.elem_setElem_ne _ d r v hr).trans (prepareTable_elem s used r)
  refine ⟨hother, ?_⟩
  rw [prepareTable_eq]
  split
  · rename_i hbuild
    have hu : used = true := (Bool.and_eq_true_iff.mp hbuild).1
    exact ⟨fun _ => rfl, rfl, ⟨rfl, rfl, rfl, rfl, rfl⟩, by simp [hu], fun _ => ⟨rfl, rfl⟩⟩
  · rename_i hbuild
    refine ⟨fun _ => rfl, rfl, ⟨rfl, rfl, rfl, rfl, rfl⟩, fun _ => ⟨rfl, rfl⟩, fun hu => ?_⟩
    have hr : s.tblReady = true := by simpa [hu] using hbuild
    exact ⟨hr, hready hr⟩

/-- MUL computes with T, whether it finds the table ready or builds it. -/
theorem exec_mul {s : State} (hf : s.fatal = false) (hready : s.tblReady = true → s.tbl = table) (d : Reg) {a b : Reg}
    (ha : isCanonical (s.elem a) = true) (hb : isCanonical (s.elem b) = true) :
    exec (.mul d a b) s =
      .next (((prepareTable s true).setElem d (mul table (s.elem a) (s.elem b))).complete .ok) := by
  have hrun : exec (.mul d a b) s = writeWithTable s true d fun tbl => mul tbl (s.elem a) (s.elem b) :=
    command_runs hf (by simpa using ⟨ha, hb⟩)
  rw [hrun, writeWithTable_eq hf, prepareTable_tbl hready rfl]

/-- Settles O33: MUL writes the product of the sources as they were, and of the rest only the table's first build. -/
theorem mulCommand : Obligations.MulCommand := by
  refine fun d a b s => ⟨?_, fun hf hready ha hb => ?_, fun hf h => ?_, failsWith_tableFatal _⟩
  · exact (toNat_packWord 0x12 d a b 0).trans (by simp)
  · refine ⟨_, exec_mul hf hready d ha hb, ⟨rfl, rfl⟩, ?_⟩
    rw [State.elem_complete, State.elem_setElem_self]
    exact ⟨fun i hi => getLsbD_mul table _ _ hi, (isCanonical_iff_excess _).mp (isCanonical_mul _ _ _),
      s.onlyProduct_prepareTable hready true d _ _⟩
  · obtain hn | hn := h <;> exact failsWith_nonCanonical rfl hf (by simp) hn

-- Positions as coefficients over the field of two elements

/-- A bit as an element of the field of two elements: exclusive-or is its sum, conjunction its product. -/
def bitValue (b : Bool) : ZMod 2 := if b then 1 else 0

theorem bitValue_xor : ∀ a b : Bool, bitValue (a ^^ b) = bitValue a + bitValue b := by decide

theorem bitValue_and : ∀ a b : Bool, bitValue (a && b) = bitValue a * bitValue b := by decide

theorem bitValue_injective : Function.Injective bitValue := by decide

theorem bitValue_xorPairs (f : Pair → Bool) (t : List Pair) :
    bitValue (xorPairs f t) = (t.map fun p => bitValue (f p)).sum := by
  induction t with
  | nil => rfl
  | cons p t ih => rw [xorPairs, bitValue_xor, ih, List.map_cons, List.sum_cons]

/-- Position i of an element, as a coefficient. -/
def coord (x : Elem) (i : Pos) : ZMod 2 := bitValue (getBit x i)

theorem eq_of_coord_eq {x y : Elem} (hx : isCanonical x = true) (hy : isCanonical y = true)
    (h : ∀ i, coord x i = coord y i) : x = y :=
  eq_of_getBit_eq hx hy fun i => bitValue_injective (h i)

@[simp] theorem coord_zeroV (i : Pos) : coord zeroV i = 0 := by
  rw [coord, getBit_zeroV]
  rfl

@[simp] theorem coord_oneV (i : Pos) : coord oneV i = 1 := by
  rw [coord, getBit_oneV]
  rfl

theorem coord_add (a b : Elem) (i : Pos) : coord (add a b) i = coord a i + coord b i := by
  rw [coord, getBit_add, bitValue_xor, coord, coord]

theorem coord_sqr (a : Elem) (i : Pos) : coord (sqr a) i = coord a (i - 1) := by rw [coord, getBit_sqr, coord]

/-- R180: the product is bilinear in the coefficients of its operands. -/
theorem coord_mul (tbl : List Pair) (u v : Elem) (i : Pos) :
    coord (mul tbl u v) i = (tbl.map fun p => coord u (i + p.1) * coord v (i + p.2)).sum := by
  simp only [coord, getBit_mul, bitValue_xorPairs, bitValue_and]

/-- R180 summed over the positions themselves, in place of their distances from k. -/
theorem coord_mul_table (u v : Elem) (k : Pos) : coord (mul table u v) k =
    ∑ q : Pair, if q - (k, k) ∈ table then coord u q.1 * coord v q.2 else 0 := by
  have hmem : table.toFinset = Finset.univ.filter fun p => p ∈ table := by
    ext p
    simp
  rw [coord_mul, ← List.sum_toFinset _ table_nodup, hmem, Finset.sum_filter,
    ← Equiv.sum_comp (Equiv.subRight ((k, k) : Pair))]
  simp only [Equiv.subRight_apply, Prod.fst_sub, Prod.snd_sub, add_sub_cancel]

-- Commutativity, distributivity and zero (R186, R189)

/-- T is symmetric, so exchanging the operands only reorders the sum. -/
protected theorem mul_comm (a b : Elem) : mul table a b = mul table b a := by
  refine eq_of_coord_eq (isCanonical_mul _ _ _) (isCanonical_mul _ _ _) fun i => ?_
  rw [coord_mul, coord_mul, ← (map_swap_table_perm.map _).sum_eq, List.map_map]
  exact congrArg List.sum (List.map_congr_left fun p _ => mul_comm _ _)

/-- Settles O45: T is symmetric. -/
theorem mulCommutative : Obligations.MulCommutative := fun a b _ _ => Machine.mul_comm a b

protected theorem mul_add (tbl : List Pair) (a b c : Elem) :
    mul tbl a (add b c) = add (mul tbl a b) (mul tbl a c) :=
  eq_of_coord_eq (isCanonical_mul _ _ _) (isCanonical_add (isCanonical_mul _ _ _) (isCanonical_mul _ _ _)) fun i => by
    simp only [coord_add, coord_mul, mul_add, List.sum_map_add]

/-- Settles O46: each coefficient of a product is linear in the second operand. -/
theorem mulDistributes : Obligations.MulDistributes := fun a b c _ _ _ => Machine.mul_add table a b c

theorem mul_zeroV (tbl : List Pair) (a : Elem) : mul tbl a zeroV = zeroV :=
  eq_of_coord_eq (isCanonical_mul _ _ _) isCanonical_zeroV fun i => by
    simp only [coord_mul, coord_zeroV, mul_zero, List.sum_map_zero]

/-- Settles O50: every term of the sum has a factor zero. -/
theorem mulByZero : Obligations.MulByZero := fun a _ =>
  ⟨mul_zeroV table a, (Machine.mul_comm zeroV a).trans (mul_zeroV table a)⟩

-- One (R185)

/-- Row 0 of T has one member and every other row two, so a term that depends on the first index only survives in row 0 (R171). -/
theorem sum_table_fst (f : Pos → ZMod 2) : (table.map fun p => f p.1).sum = f 0 := by
  have hrow (x : Pos) : ((tableRow x).map fun _ => f x).sum = if x = 0 then f 0 else 0 := by
    rw [List.map_const', List.sum_replicate]
    by_cases hx : x = 0
    · simp [hx, tableRow_zero]
    · rw [tableRow_length_of_ne_zero x hx, if_neg hx, two_nsmul, CharTwo.add_self_eq_zero]
  rw [table_eq_flatMap_rows, List.map_flatMap, List.flatMap_def, List.sum_flatten]
  simp only [List.map_map, Function.comp_def, hrow]
  rw [← Fin.sum_univ_def, Finset.sum_ite_eq', if_pos (Finset.mem_univ _)]

theorem mul_oneV {a : Elem} (ha : isCanonical a = true) : mul table a oneV = a :=
  eq_of_coord_eq (isCanonical_mul _ _ _) ha fun i => by
    simp only [coord_mul, coord_oneV, mul_one, sum_table_fst fun x => coord a (i + x), add_zero]

/-- Settles O49: against one, the two members of a row other than row 0 cancel. -/
theorem mulByOne : Obligations.MulByOne := fun a ha =>
  ⟨mul_oneV ha, (Machine.mul_comm oneV a).trans (mul_oneV ha)⟩

-- The product of equal operands (R184)

theorem mem_table_diagonal (x : Pos) : (x, x) ∈ table ↔ x = 292 := by
  rw [mem_table_iff_mem_tableRow, mem_tableRow_self_iff]

/-- Equal terms at (x, y) and (y, x) cancel, and what is left is the one diagonal member of T (R171). -/
theorem sum_table_of_symm {f : Pair → ZMod 2} (hf : ∀ p, f p.swap = f p) : (table.map f).sum = f (292, 292) := by
  have hdiag : ((292, 292) : Pair) ∈ table.toFinset := List.mem_toFinset.mpr ((mem_table_diagonal 292).mpr rfl)
  rw [← List.sum_toFinset f table_nodup, ← Finset.add_sum_erase _ f hdiag, add_eq_left]
  refine Finset.sum_involution (fun p _ => p.swap) (fun p _ => ?_) (fun p hp _ hfix => ?_) (fun p hp => ?_)
    (fun p _ => p.swap_swap)
  · rw [hf, CharTwo.add_self_eq_zero]
  · obtain ⟨x, y⟩ := p
    obtain ⟨hne, hmem⟩ := Finset.mem_erase.mp hp
    obtain rfl : y = x := congrArg Prod.fst hfix
    exact hne (by rw [(mem_table_diagonal y).mp (List.mem_toFinset.mp hmem)])
  · obtain ⟨hne, hmem⟩ := Finset.mem_erase.mp hp
    exact Finset.mem_erase.mpr ⟨fun h => hne (Prod.swap_injective h),
      List.mem_toFinset.mpr ((mem_table_comm _ _).mp (List.mem_toFinset.mp hmem))⟩

theorem mul_self_eq_sqr (a : Elem) : mul table a a = sqr a :=
  eq_of_coord_eq (isCanonical_mul _ _ _) (isCanonical_sqr a) fun i => by
    have hidem : ∀ c : ZMod 2, c * c = c := by decide
    have hlast : i + 292 = i - 1 := sub_eq_add_neg i 1 ▸ rfl
    rw [coord_mul, sum_table_of_symm fun p => mul_comm _ _, coord_sqr, hidem, hlast]

/-- Settles O48: off the diagonal the terms cancel in pairs, and (292, 292) gives the rotation. -/
theorem mulOfEqualIsSqr : Obligations.MulOfEqualIsSqr := fun a _ => mul_self_eq_sqr a

-- The powers of two modulo 587, up to sign (R161): position k stands for 2^k and −2^k, which their square 4^k names

/-- 2^k modulo 587. -/
def twoPow (k : Pos) : ZMod 587 := 2 ^ k.val

theorem sq_twoPow (k : Pos) : twoPow k ^ 2 = 4 ^ k.val := by
  rw [twoPow, pow_right_comm]
  norm_num

theorem isPrimitiveRoot_four : IsPrimitiveRoot (4 : ZMod 587) 293 := by
  have : Fact (Nat.Prime 293) := ⟨by norm_num⟩
  have horder : orderOf (4 : ZMod 587) = 293 := orderOf_eq_prime (by decide +kernel) (by decide +kernel)
  exact horder ▸ IsPrimitiveRoot.orderOf 4

/-- The squares take sums of positions to products, the wrap at 293 included. -/
theorem sq_twoPow_add (k a : Pos) : twoPow (k + a) ^ 2 = twoPow k ^ 2 * twoPow a ^ 2 := by
  rw [sq_twoPow, sq_twoPow, sq_twoPow, ← pow_add, Fin.val_add, ← pow_eq_pow_mod _ isPrimitiveRoot_four.pow_eq_one]

theorem sq_twoPow_inj {i k : Pos} : twoPow i ^ 2 = twoPow k ^ 2 ↔ i = k := by
  refine ⟨fun h => ?_, fun h => h ▸ rfl⟩
  rw [sq_twoPow, sq_twoPow] at h
  exact Fin.ext (isPrimitiveRoot_four.pow_inj i.isLt k.isLt h)

theorem two_ne_zero_mod_587 : (2 : ZMod 587) ≠ 0 := by decide

-- The group ring of the integers modulo 587 over the field of two elements

/-- The finite sums of powers γ^x, x modulo 587, of a generator γ of order 587. -/
abbrev GroupRing := AddMonoidAlgebra (ZMod 2) (ZMod 587)

/-- γ^x + γ^(−x): for x = 2^k, what position k of an element stands for in the group ring. -/
noncomputable def gaussPeriod (x : ZMod 587) : GroupRing := .single x 1 + .single (-x) 1

theorem gaussPeriod_zero : gaussPeriod 0 = 0 := by
  rw [gaussPeriod, neg_zero, ← AddMonoidAlgebra.single_add, CharTwo.add_self_eq_zero, AddMonoidAlgebra.single_zero]

theorem gaussPeriod_neg (x : ZMod 587) : gaussPeriod (-x) = gaussPeriod x := by
  rw [gaussPeriod, gaussPeriod, neg_neg, add_comm]

theorem gaussPeriod_mul (x y : ZMod 587) :
    gaussPeriod x * gaussPeriod y = gaussPeriod (x + y) + gaussPeriod (x - y) := by
  simp only [gaussPeriod, add_mul, mul_add, AddMonoidAlgebra.single_mul_single, mul_one]
  rw [neg_add, neg_sub, ← sub_eq_add_neg, neg_add_eq_sub]
  abel

/-- An element in the group ring: the sum of the Gauss periods of its set positions. -/
noncomputable def toGroupRing (u : Elem) : GroupRing := ∑ k : Pos, coord u k • gaussPeriod (twoPow k)

section Prime587

variable [Fact (Nat.Prime 587)]

theorem twoPow_ne_zero (k : Pos) : twoPow k ≠ 0 := pow_ne_zero _ two_ne_zero_mod_587

/-- Every non-zero residue is a power of two up to sign. -/
theorem exists_sq_eq_sq_twoPow {x : ZMod 587} (hx : x ≠ 0) : ∃ k, x ^ 2 = twoPow k ^ 2 := by
  have hone : (x ^ 2) ^ 293 = 1 := (pow_mul x 2 293).symm.trans (ZMod.pow_card_sub_one_eq_one hx)
  obtain ⟨k, hk, hpow⟩ := isPrimitiveRoot_four.eq_pow_of_pow_eq_one hone
  exact ⟨⟨k, hk⟩, by rw [sq_twoPow, hpow]⟩

-- The test of T by squares (R162)

/-- Whether one of x + y and x − y has the square c is told by the squares of x and y. -/
theorem sq_add_eq_or_sq_sub_eq_iff {x y c : ZMod 587} :
    (x + y) ^ 2 = c ∨ (x - y) ^ 2 = c ↔ (x ^ 2 + y ^ 2 - c) ^ 2 = 4 * (x ^ 2 * y ^ 2) := by
  have hfactor : (x ^ 2 + y ^ 2 - c) ^ 2 - 4 * (x ^ 2 * y ^ 2) = ((x + y) ^ 2 - c) * ((x - y) ^ 2 - c) := by ring
  rw [← sub_eq_zero (b := 4 * _), hfactor, mul_eq_zero, sub_eq_zero, sub_eq_zero]

/-- The four sign combinations of R162 are the square roots of one in the sum and in the difference. -/
theorem mem_table_iff_sq (a b : Pos) :
    (a, b) ∈ table ↔ (twoPow a + twoPow b) ^ 2 = 1 ∨ (twoPow a - twoPow b) ^ 2 = 1 := by
  have hcast (s1 s2 : Int) : (s1 * 2 ^ a.val + s2 * 2 ^ b.val) % 587 = 1 ↔ s1 * twoPow a + s2 * twoPow b = 1 := by
    have h := ZMod.intCast_eq_intCast_iff' (s1 * 2 ^ a.val + s2 * 2 ^ b.val) 1 587
    push_cast at h
    exact h.symm
  rw [mem_table, hit_iff, sq_eq_one_iff, sq_eq_one_iff, ← neg_eq_iff_eq_neg, ← neg_eq_iff_eq_neg, neg_add, neg_sub]
  simp only [hcast, List.mem_cons, List.not_mem_nil, or_false, exists_eq_or_imp, exists_eq_left, Int.cast_one,
    Int.cast_neg, one_mul, neg_one_mul, ← sub_eq_add_neg, neg_add_eq_sub]
  rw [or_assoc, or_assoc, or_rotate (a := -twoPow a - twoPow b = 1)]

/-- The test of T with both indices moved up by k asks for 2^k, up to sign, in place of 1. -/
theorem mem_table_iff_sq_shift (k a b : Pos) : (a, b) ∈ table ↔
    (twoPow (k + a) + twoPow (k + b)) ^ 2 = twoPow k ^ 2 ∨
    (twoPow (k + a) - twoPow (k + b)) ^ 2 = twoPow k ^ 2 := by
  have hscale (x y c : ZMod 587) : (c * x + c * y - c) ^ 2 = 4 * (c * x * (c * y)) ↔
      c ^ 2 * (x + y - 1) ^ 2 = c ^ 2 * (4 * (x * y)) := by
    rw [show (c * x + c * y - c) ^ 2 = c ^ 2 * (x + y - 1) ^ 2 by ring,
      show 4 * (c * x * (c * y)) = c ^ 2 * (4 * (x * y)) by ring]
  rw [mem_table_iff_sq, sq_add_eq_or_sq_sub_eq_iff, sq_add_eq_or_sq_sub_eq_iff, sq_twoPow_add, sq_twoPow_add, hscale,
    mul_right_inj' (pow_ne_zero 2 (pow_ne_zero 2 (twoPow_ne_zero k)))]

-- The map to the group ring is one-to-one

/-- The exponents of a Gauss period are told by their square: x and −x, both with coefficient one. -/
theorem coeff_gaussPeriod (x : ZMod 587) {y : ZMod 587} (hy : y ≠ 0) :
    (gaussPeriod x).coeff y = if x ^ 2 = y ^ 2 then 1 else 0 := by
  have hne : y ≠ -y := fun h => by
    rcases (ZMod.neg_eq_self_iff y).mp h.symm with hzero | hodd
    · exact hy hzero
    · omega
  simp only [gaussPeriod, AddMonoidAlgebra.coeff_add, AddMonoidAlgebra.coeff_single, Finsupp.add_apply,
    Finsupp.single_apply, sq_eq_sq_iff_eq_or_eq_neg, neg_eq_iff_eq_neg]
  by_cases hxy : x = y
  · simp [hxy, hne]
  · simp [hxy]

theorem coeff_toGroupRing (u : Elem) (i : Pos) : (toGroupRing u).coeff (twoPow i) = coord u i := by
  simp [toGroupRing, Finsupp.finsetSum_apply, coeff_gaussPeriod _ (twoPow_ne_zero i), sq_twoPow_inj]

theorem eq_of_toGroupRing_eq {x y : Elem} (hx : isCanonical x = true) (hy : isCanonical y = true)
    (h : toGroupRing x = toGroupRing y) : x = y :=
  eq_of_coord_eq hx hy fun i => by rw [← coeff_toGroupRing, h, coeff_toGroupRing]

-- The map to the group ring takes `mul` to the ring's product

/-- Every Gauss period is that of a power of two, or zero. -/
theorem gaussPeriod_eq_sum (x : ZMod 587) :
    gaussPeriod x = ∑ k : Pos, if x ^ 2 = twoPow k ^ 2 then gaussPeriod (twoPow k) else 0 := by
  by_cases hx : x = 0
  · have hne (k : Pos) : x ^ 2 ≠ twoPow k ^ 2 := by
      rw [hx, zero_pow two_ne_zero]
      exact (pow_ne_zero 2 (twoPow_ne_zero k)).symm
    simp only [hne, if_false, Finset.sum_const_zero]
    rw [hx, gaussPeriod_zero]
  · obtain ⟨i, hi⟩ := exists_sq_eq_sq_twoPow hx
    simp only [hi, sq_twoPow_inj, Finset.sum_ite_eq, Finset.mem_univ, if_true]
    rcases sq_eq_sq_iff_eq_or_eq_neg.mp hi with rfl | rfl
    · rfl
    · exact gaussPeriod_neg _

/-- T lists the periods that occur in the product of two: at k when the positions, counted from k, are a pair of T. -/
theorem gaussPeriod_twoPow_mul (i j : Pos) : gaussPeriod (twoPow i) * gaussPeriod (twoPow j) =
    ∑ k : Pos, if (i, j) - (k, k) ∈ table then gaussPeriod (twoPow k) else 0 := by
  rw [gaussPeriod_mul, gaussPeriod_eq_sum (_ + _), gaussPeriod_eq_sum (_ - _), ← Finset.sum_add_distrib]
  refine Finset.sum_congr rfl fun k _ => ?_
  simp only [Prod.mk_sub_mk, mem_table_iff_sq_shift k, add_sub_cancel]
  by_cases hsum : (twoPow i + twoPow j) ^ 2 = twoPow k ^ 2
  · have hdiff : (twoPow i - twoPow j) ^ 2 ≠ twoPow k ^ 2 := fun hdiff => by
      have hzero : (2 * twoPow i) * (2 * twoPow j) = 0 := by linear_combination hsum - hdiff
      exact mul_ne_zero (mul_ne_zero two_ne_zero_mod_587 (twoPow_ne_zero i))
        (mul_ne_zero two_ne_zero_mod_587 (twoPow_ne_zero j)) hzero
    simp [hsum, hdiff]
  · simp [hsum]

theorem toGroupRing_mul (u v : Elem) : toGroupRing (mul table u v) = toGroupRing u * toGroupRing v := by
  have hterm (q : Pair) : (coord u q.1 • gaussPeriod (twoPow q.1)) * (coord v q.2 • gaussPeriod (twoPow q.2)) =
      ∑ k : Pos, (if q - (k, k) ∈ table then coord u q.1 * coord v q.2 else 0) • gaussPeriod (twoPow k) := by
    rw [smul_mul_smul_comm, gaussPeriod_twoPow_mul, Finset.smul_sum]
    simp only [smul_ite, ite_smul, smul_zero, zero_smul]
  calc toGroupRing (mul table u v)
      = ∑ k : Pos, ∑ q : Pair,
          (if q - (k, k) ∈ table then coord u q.1 * coord v q.2 else 0) • gaussPeriod (twoPow k) := by
        simp only [toGroupRing, coord_mul_table, Finset.sum_smul]
    _ = ∑ q : Pair, (coord u q.1 • gaussPeriod (twoPow q.1)) * (coord v q.2 • gaussPeriod (twoPow q.2)) := by
        rw [Finset.sum_comm]
        simp only [hterm]
    _ = toGroupRing u * toGroupRing v := by
        rw [Fintype.sum_prod_type, toGroupRing, toGroupRing, Fintype.sum_mul_sum]

end Prime587

-- Associativity (R186)

protected theorem mul_assoc (a b c : Elem) : mul table (mul table a b) c = mul table a (mul table b c) := by
  have : Fact (Nat.Prime 587) := ⟨by norm_num⟩
  refine eq_of_toGroupRing_eq (isCanonical_mul _ _ _) (isCanonical_mul _ _ _) ?_
  rw [toGroupRing_mul, toGroupRing_mul, toGroupRing_mul, toGroupRing_mul, mul_assoc]

/-- Settles O47: `mul` over T is the product of the group ring, seen through a one-to-one map. -/
theorem mulAssociative : Obligations.MulAssociative := fun a b c _ _ _ => Machine.mul_assoc a b c

end Sys2Proof.Machine
end

section
/-! PROOFS. Exponentiation (45_exponentiation.md, R191 to R196): the command POW, `power` as the power by the exponent's number, its corner cases, and the order of the multiplicative group. -/

namespace Sys2Proof.Machine

-- POW (R192, R193)

/-- R193 as a fold over the positions n - 1 down to 0. -/
theorem powerLoop_eq_foldl (tbl : List Pair) (g e : Elem) (n : Nat) (r : Elem) : powerLoop tbl g e n r =
    (List.finRange n).foldl (fun r k => if e.getLsbD k.rev then mul tbl (sqr r) g else sqr r) r := by
  induction n generalizing r with
  | zero => rfl
  | succ n ih =>
    rw [powerLoop, ih, List.finRange_succ, List.foldl_cons, List.foldl_map]
    simp only [Fin.rev_succ, Fin.val_castSucc, Fin.rev_zero, Fin.val_last]

/-- POW computes with T: a non-zero exponent finds the table ready or builds it, and exponent zero does not read it (R168, R196). -/
theorem exec_pow {s : State} (hf : s.fatal = false) (hready : s.tblReady = true → s.tbl = table) (d : Reg) {a b : Reg}
    (ha : isCanonical (s.elem a) = true) (hb : isCanonical (s.elem b) = true) :
    exec (.pow d a b) s = .next (((prepareTable s (s.elem b != zeroV)).setElem d
      (power table (s.elem a) (s.elem b))).complete .ok) := by
  have hrun : exec (.pow d a b) s =
      writeWithTable s (s.elem b != zeroV) d fun tbl => power tbl (s.elem a) (s.elem b) :=
    command_runs hf (by simpa using ⟨ha, hb⟩)
  rw [hrun, writeWithTable_eq hf]
  by_cases hz : s.elem b = zeroV
  · rw [hz, power_zeroV _ table]
  · rw [prepareTable_tbl hready (bne_iff_ne.mpr hz)]

/-- Settles O34: POW writes the accumulator of the loop on the sources as they were, and of the rest only the table's first build. -/
theorem powCommand : Obligations.PowCommand := by
  refine fun d a b s => ⟨?_, fun hf hready ha hb => ?_, fun hf h => ?_, failsWith_tableFatal _⟩
  · exact (toNat_packWord 0x13 d a b 0).trans (by simp)
  · refine ⟨_, exec_pow hf hready d ha hb, ⟨rfl, rfl⟩, ?_, s.onlyProduct_prepareTable hready _ d _ _⟩
    rw [State.elem_complete, State.elem_setElem_self]
    exact powerLoop_eq_foldl _ _ _ _ _
  · obtain hn | hn := h <;> exact failsWith_nonCanonical rfl hf (by simp) hn

-- Powers by a natural number

/-- g^n: ONE_V multiplied n times by g. -/
def natPow (g : Elem) (n : Nat) : Elem := (fun r => mul table r g)^[n] oneV

@[simp] theorem natPow_zero (g : Elem) : natPow g 0 = oneV := rfl

theorem natPow_succ (g : Elem) (n : Nat) : natPow g (n + 1) = mul table (natPow g n) g :=
  Function.iterate_succ_apply' _ n oneV

theorem isCanonical_natPow (g : Elem) (n : Nat) : isCanonical (natPow g n) = true := by
  cases n with
  | zero => exact isCanonical_oneV
  | succ n =>
    rw [natPow_succ]
    exact isCanonical_mul _ _ _

theorem natPow_add (g : Elem) (m n : Nat) : natPow g (m + n) = mul table (natPow g m) (natPow g n) := by
  induction n with
  | zero => rw [Nat.add_zero, natPow_zero, mul_oneV (isCanonical_natPow g m)]
  | succ n ih => rw [← Nat.add_assoc, natPow_succ, ih, Machine.mul_assoc, ← natPow_succ]

theorem sqr_natPow (g : Elem) (n : Nat) : sqr (natPow g n) = natPow g (2 * n) := by
  rw [Nat.two_mul, natPow_add, mul_self_eq_sqr]

theorem natPow_one {g : Elem} (hg : isCanonical g = true) : natPow g 1 = g := by
  rw [natPow_succ, natPow_zero, Machine.mul_comm, mul_oneV hg]

/-- The power by 2^k is k squarings. -/
theorem natPow_two_pow {g : Elem} (hg : isCanonical g = true) (k : Nat) : natPow g (2 ^ k) = sqr^[k] g := by
  induction k with
  | zero => exact natPow_one hg
  | succ k ih => rw [Nat.pow_succ', ← sqr_natPow, ih, Function.iterate_succ_apply']

theorem natPow_zeroV_succ (n : Nat) : natPow zeroV (n + 1) = zeroV := by rw [natPow_succ, mul_zeroV]

theorem natPow_oneV (n : Nat) : natPow oneV n = oneV :=
  Function.iterate_fixed (f := fun r => mul table r oneV) (mul_oneV isCanonical_oneV) n

-- `power` as the power by the exponent's number (R191, R193)

/-- The loop's invariant: on an accumulator g^m, the positions n - 1 down to 0 bring the exponent to m followed by them. -/
theorem powerLoop_natPow (g e : Elem) (n m : Nat) :
    powerLoop table g e n (natPow g m) = natPow g (2 ^ n * m + e.toNat % 2 ^ n) := by
  induction n generalizing m with
  | zero => rw [powerLoop, Nat.pow_zero, Nat.one_mul, Nat.mod_one, Nat.add_zero]
  | succ n ih =>
    have hstep : (if e.getLsbD n then mul table (sqr (natPow g m)) g else sqr (natPow g m)) =
        natPow g (2 * m + (e.toNat.testBit n).toNat) := by
      rw [sqr_natPow, ← natPow_succ, ← BitVec.testBit_toNat]
      cases e.toNat.testBit n <;> rfl
    rw [powerLoop, hstep, ih, Nat.mod_pow_succ, ← Nat.toNat_testBit]
    congr 1
    ring

/-- R193: square-and-multiply computes g^N(e). -/
theorem power_eq_natPow (g : Elem) {e : Elem} (he : isCanonical e = true) :
    power table g e = natPow g (exponentValue e) := by
  have hloop := powerLoop_natPow g e 293 0
  rwa [Nat.mul_zero, Nat.zero_add, Nat.mod_eq_of_lt ((isCanonical_iff_toNat e).mp he)] at hloop

-- Corner cases (R192)

theorem exponentValue_zeroV : exponentValue zeroV = 0 := BitVec.toNat_zero

theorem power_zeroV_right (g : Elem) : power table g zeroV = oneV := by
  rw [power_eq_natPow g isCanonical_zeroV, exponentValue_zeroV, natPow_zero]

/-- The exponent with only position k set is 2^k (R191). -/
theorem exponentValue_setBit_zeroV (k : Pos) : exponentValue (setBit zeroV k) = 2 ^ k.val := by
  have hk : k.val < 320 := by omega
  rw [exponentValue, setBit, zeroV, BitVec.ofNat_eq_ofNat, BitVec.zero_or, ← BitVec.twoPow_eq,
    BitVec.toNat_twoPow_of_lt hk]

theorem power_setBit_zeroV {g : Elem} (hg : isCanonical g = true) (k : Pos) :
    power table g (setBit zeroV k) = sqr^[k.val] g := by
  rw [power_eq_natPow g (isCanonical_setBit k isCanonical_zeroV), exponentValue_setBit_zeroV, natPow_two_pow hg]

theorem power_zeroV_left {e : Elem} (he : isCanonical e = true) (hpos : 1 ≤ exponentValue e) :
    power table zeroV e = zeroV := by
  rw [power_eq_natPow zeroV he, ← Nat.sub_add_cancel hpos, natPow_zeroV_succ]

/-- Settles O51: each case is a law of g^n at the exponent's number. -/
theorem powCornerCases : Obligations.PowCornerCases :=
  ⟨fun g _ => power_zeroV_right g, fun _ hg => power_setBit_zeroV hg 0,
    fun _ hg => power_setBit_zeroV hg 1, fun _ k hg => power_setBit_zeroV hg k,
    fun _ => power_zeroV_left, fun _ he => (power_eq_natPow oneV he).trans (natPow_oneV _)⟩

-- The order of the multiplicative group (R195)

theorem exponentValue_oneV : exponentValue oneV = 2 ^ 293 - 1 := by
  rw [exponentValue, oneV, toNat_canonicalize, BitVec.toNat_allOnes]
  omega

/-- A rotation by one position fixes only the elements whose positions are all equal. -/
theorem eq_zeroV_or_eq_oneV_of_sqr_eq {x : Elem} (hx : isCanonical x = true) (h : sqr x = x) :
    x = zeroV ∨ x = oneV := by
  have hstep (i : Pos) : getBit x (i + 1) = getBit x i := by
    have hrot := getBit_sqr x (i + 1)
    rwa [h, add_sub_cancel_right] at hrot
  have hconst (i : Pos) : getBit x i = getBit x 0 := by
    induction i using Fin.induction with
    | zero => rfl
    | succ i ih => rw [← Fin.coeSucc_eq_succ, hstep, ih]
  cases hzero : getBit x 0 with
  | false => exact .inl (eq_of_getBit_eq hx isCanonical_zeroV fun i => by rw [hconst, hzero, getBit_zeroV])
  | true => exact .inr (eq_of_getBit_eq hx isCanonical_oneV fun i => by rw [hconst, hzero, getBit_oneV])

/-- 293 squarings are the identity, so the power by 2^293 is too. -/
theorem natPow_two_pow_293 {a : Elem} (ha : isCanonical a = true) : natPow a (2 ^ 293) = a := by
  rw [natPow_two_pow ha, iterate_sqr_full_turn ha]

/-- If a^(n+2) = a, then a^(n+1) is its own square. -/
theorem sqr_natPow_eq_self {a : Elem} {n : Nat} (h : natPow a (n + 2) = a) :
    sqr (natPow a (n + 1)) = natPow a (n + 1) := by
  calc sqr (natPow a (n + 1)) = natPow a (n + 2 + n) := by rw [sqr_natPow]; congr 1; omega
    _ = mul table (natPow a n) a := by rw [natPow_add, h, Machine.mul_comm]
    _ = natPow a (n + 1) := (natPow_succ a n).symm

/-- a^(2^293 - 1) is its own square, so it is zero or one; it is not zero, since its product with a is a. -/
theorem natPow_order {a : Elem} (ha : isCanonical a = true) (hne : a ≠ zeroV) : natPow a (2 ^ 293 - 1) = oneV := by
  obtain ⟨n, hn⟩ : ∃ n, 2 ^ 293 = n + 2 := ⟨2 ^ 293 - 2, by omega⟩
  have hfull : natPow a (n + 2) = a := hn ▸ natPow_two_pow_293 ha
  rw [hn, show n + 2 - 1 = n + 1 from rfl]
  refine (eq_zeroV_or_eq_oneV_of_sqr_eq (isCanonical_natPow a _) (sqr_natPow_eq_self hfull)).resolve_left fun hz => ?_
  rw [natPow_succ, hz, Machine.mul_comm, mul_zeroV] at hfull
  exact hne hfull.symm

/-- Settles O52: squaring fixes only zero and one, and a^(2^293 - 1) is its own square. -/
theorem powFieldOrder : Obligations.PowFieldOrder := fun a ha => by
  refine ⟨fun hne => ?_, fun hz => ?_, exponentValue_oneV⟩
  · rw [power_eq_natPow a isCanonical_oneV, exponentValue_oneV, natPow_order ha hne]
  · rw [hz, power_zeroV_left isCanonical_oneV (by rw [exponentValue_oneV]; omega)]

end Sys2Proof.Machine
end

section
/-! PROOFS. Inversion (46_inversion.md, R200 to R205): the command INV, and `invert` as the inverse in the multiplicative group. -/

namespace Sys2Proof.Machine

-- INV (R200, R201)

theorem invert_of_ne_zeroV (tbl : List Pair) {a : Elem} (hne : a ≠ zeroV) :
    invert tbl a = invertLoop tbl 292 a oneV := if_neg hne

/-- R200 as a fold of n rounds over the pair of t and the running product. -/
theorem invertLoop_eq_foldl (tbl : List Pair) (n : Nat) (t r : Elem) : invertLoop tbl n t r =
    ((List.range n).foldl (fun p _ => (sqr p.1, mul tbl p.2 (sqr p.1))) (t, r)).2 := by
  induction n generalizing t r with
  | zero => rfl
  | succ n ih => rw [invertLoop, ih, List.range_succ_eq_map, List.foldl_cons, List.foldl_map]

/-- INV computes with T: a non-zero operand finds the table ready or builds it, and operand zero does not read it (R168). -/
theorem exec_inv {s : State} (hf : s.fatal = false) (hready : s.tblReady = true → s.tbl = table) (d : Reg) {a : Reg}
    (ha : isCanonical (s.elem a) = true) :
    exec (.inv d a) s = .next (((prepareTable s (s.elem a != zeroV)).setElem d
      (invert table (s.elem a))).complete .ok) := by
  have hrun : exec (.inv d a) s = writeWithTable s (s.elem a != zeroV) d fun tbl => invert tbl (s.elem a) :=
    command_runs hf (by simpa using ha)
  rw [hrun, writeWithTable_eq hf]
  by_cases hz : s.elem a = zeroV
  · rw [hz, invert_zeroV, invert_zeroV]
  · rw [prepareTable_tbl hready (bne_iff_ne.mpr hz)]

/-- Settles O35: INV writes the running product of the loop on the source as it was, and of the rest only the table's first build. -/
theorem invCommand : Obligations.InvCommand := by
  refine fun d a s => ⟨?_, fun hf hready ha => ?_, fun hf hn => failsWith_nonCanonical rfl hf (by simp) hn,
    failsWith_tableFatal _⟩
  · exact (toNat_packWord 0x14 d a 0 0).trans (by simp)
  · refine ⟨_, exec_inv hf hready d ha, ⟨rfl, rfl⟩, ?_, s.onlyProduct_prepareTable hready _ d _ _⟩
    rw [State.elem_complete, State.elem_setElem_self, invert, invertLoop_eq_foldl]

-- The inverse (R205)

/-- The loop's invariant: with t = a^k and the running product a^m, n rounds multiply by a^(2k), a^(4k), ..., a^(2^n k). -/
theorem invertLoop_natPow (a : Elem) (n k m : Nat) :
    invertLoop table n (natPow a k) (natPow a m) = natPow a (m + k * (2 ^ (n + 1) - 2)) := by
  induction n generalizing k m with
  | zero => rw [invertLoop, Nat.zero_add, Nat.pow_one, Nat.sub_self, Nat.mul_zero, Nat.add_zero]
  | succ n ih =>
    obtain ⟨q, hq⟩ : ∃ q, 2 ^ (n + 1) = q + 2 :=
      Nat.exists_eq_add_of_le' (Nat.le_self_pow n.succ_ne_zero 2)
    rw [invertLoop, sqr_natPow, ← natPow_add, ih, Nat.pow_succ _ (n + 1), hq]
    congr 1
    rw [Nat.add_sub_cancel, show (q + 2) * 2 - 2 = 2 * q + 2 by omega]
    ring

/-- R200: the inverse is the power by 2^293 - 2. -/
theorem invert_eq_natPow {a : Elem} (ha : isCanonical a = true) (hne : a ≠ zeroV) :
    invert table a = natPow a (2 ^ 293 - 2) := by
  calc invert table a
      = invertLoop table 292 (natPow a 1) (natPow a 0) := by
        rw [invert_of_ne_zeroV table hne, natPow_one ha, natPow_zero]
    _ = natPow a (2 ^ 293 - 2) := by rw [invertLoop_natPow, Nat.zero_add, Nat.one_mul]

/-- Settles O53: the product is a^(2^293 - 1), which is one for every non-zero a. -/
theorem inverseLaw : Obligations.InverseLaw := by
  refine fun a ha => ⟨fun hne => ?_, invert_zeroV table⟩
  calc mul table a (invert table a)
      = natPow a (2 ^ 293 - 2 + 1) := by rw [invert_eq_natPow ha hne, Machine.mul_comm, ← natPow_succ]
    _ = natPow a (2 ^ 293 - 1) := by rw [show 2 ^ 293 - 2 + 1 = 2 ^ 293 - 1 by omega]
    _ = oneV := natPow_order ha hne

end Sys2Proof.Machine
end

section
/-! PROOFS. The trace (47_trace.md, R210 to R213): the command TRACE and the laws of the trace. -/

namespace Sys2Proof.Machine

-- TRACE (R211)

theorem toNat_boolWord (b : Bool) : (boolWord b).toNat = b.toNat := by cases b <;> rfl

theorem exec_trace {s : State} (hf : s.fatal = false) {a : Reg} (ha : isCanonical (s.elem a) = true) :
    exec (.trace a) s = .next ((s.setResult (boolWord (trace (s.elem a)))).complete .ok) :=
  command_runs hf (by simpa using ha)

/-- Settles O30: on a canonical source the binary fold is the parity of the number of one bits. -/
theorem traceCommand : Obligations.TraceCommand := by
  refine fun a s => ⟨?_, fun hf ha => ?_, fun hf => ?_, failsWith_tableFatal _⟩
  · exact (toNat_packWord 0x0A 0 a 0 0).trans (by simp)
  · refine ⟨_, exec_trace hf ha, ⟨rfl, rfl⟩, ?_, s.onlyResult_setResult_complete _ _⟩
    rw [State.complete_result, State.setResult_result, toNat_boolWord, trace_eq_bodd_popcount ha, Nat.mod_two_of_bodd]
  · exact failsWith_nonCanonical rfl hf (List.mem_singleton_self a)

-- The laws of the trace (R213)

theorem popcount_oneV : popcount oneV = 293 := by
  rw [popcount, List.countP_eq_length.mpr fun i _ => getBit_oneV i, List.length_finRange]

/-- The trace of ONE_V is 1 because 293 is odd (R211). -/
theorem trace_oneV : trace oneV = true := by
  rw [trace_eq_bodd_popcount isCanonical_oneV, popcount_oneV]
  decide

theorem trace_add (a b : Elem) : trace (add a b) = (trace a ^^ trace b) := by
  simp only [trace_eq_bodd_onesBelow, add, bodd_onesBelow_xor]

/-- Settles O54: parity is additive over exclusive-or, and squaring only permutes the positions. -/
theorem traceLaws : Obligations.TraceLaws :=
  ⟨trace_oneV, fun a b _ _ => trace_add a b, fun _ => trace_sqr⟩

end Sys2Proof.Machine
end

section
/-! PROOFS. The binary text (48_serialization.md, R225 to R230, R245): what TOBIN and TOHEX share, and the commands TOBIN and FROMBIN with their round trip. -/

namespace Sys2Proof.Machine

-- What TOBIN and TOHEX share: a string written to TXT under a least capacity (R225, R235)

/-- The command that writes `str` of its source to TXT if the capacity is at least `least`. -/
def textCommand (least : Nat) (str : Elem → List Byte) (a : Reg) (cap : Cap) (s : State) : Result :=
  command s (capLegal cap) [a]
    (if cap.toNat < least then failWith s .bufferTooSmall else writeString s (str (s.elem a)))

theorem exec_tobin_eq (a : Reg) (cap : Cap) (s : State) :
    exec (.tobin a cap) s = textCommand 294 binString a cap s := rfl

theorem exec_tohex_eq (a : Reg) (cap : Cap) (s : State) :
    exec (.tohex a cap) s = textCommand 75 (hexString false) a cap s := rfl

/-- The state after a command that wrote the string. -/
def State.withString (s : State) (str : List Byte) : State :=
  ((s.setText str).setResult (BitVec.ofNat 32 str.length)).complete .ok

section TextCommand
variable {least : Nat} {str : Elem → List Byte} {a : Reg} {cap : Cap} {s : State}

theorem textCommand_legal (hcap : cap.toNat ≤ 512) : textCommand least str a cap s =
    command s true [a] (if cap.toNat < least then failWith s .bufferTooSmall else writeString s (str (s.elem a))) := by
  rw [textCommand, (capLegal_iff cap).mpr hcap]

theorem textCommand_writes (hf : s.fatal = false) (ha : isCanonical (s.elem a) = true) (hleast : least ≤ cap.toNat)
    (hcap : cap.toNat ≤ 512) : textCommand least str a cap s = .next (s.withString (str (s.elem a))) := by
  rw [textCommand_legal hcap, command_runs hf (by simpa using ha), if_neg (Nat.not_lt.mpr hleast)]
  rfl

theorem textCommand_bufferTooSmall (hf : s.fatal = false) (ha : isCanonical (s.elem a) = true)
    (hleast : cap.toNat < least) (hcap : cap.toNat ≤ 512) :
    textCommand least str a cap s = .next (s.complete .bufferTooSmall) := by
  rw [textCommand_legal hcap, command_runs hf (by simpa using ha), if_pos hleast]
  rfl

theorem textCommand_nonCanonical (hf : s.fatal = false) (ha : isCanonical (s.elem a) = false) (hcap : cap.toNat ≤ 512) :
    textCommand least str a cap s = .next (s.complete .nonCanonical) := by
  rw [textCommand_legal hcap]
  exact command_nonCanonical hf (List.mem_singleton_self a) ha

theorem textCommand_illegal (hf : s.fatal = false) (hcap : 512 < cap.toNat) :
    textCommand least str a cap s = .next (s.complete .illegalCommand) := by
  rw [textCommand, show capLegal cap = false by simpa [capLegal] using hcap]
  exact command_illegal hf

end TextCommand

/-- TXT after a string is written: the characters, the terminator, every other byte as before. -/
theorem memRead_withString {s : State} {str : List Byte} (h : str.length ≤ 511) (hs : Memory.wf s.txt) (q : Nat) :
    memRead (s.withString str).txt q =
      if h : q < str.length then str[q] else if q = str.length then 0x00 else memRead s.txt q :=
  memRead_setText h hs q

theorem State.onlyText_withString {s : State} {str : List Byte} (h : str.length ≤ 511) (hs : Memory.wf s.txt) :
    s.onlyText (s.withString str) (str.length + 1) := by
  refine ⟨fun _ => rfl, fun k hk => ?_, ⟨rfl, rfl⟩, rfl, rfl, rfl, rfl, rfl⟩
  rw [memRead_withString h hs, dif_neg (by omega), if_neg (by omega)]

-- The binary string of an element in TXT (R226)

/-- TXT holds the binary string of `x` and its terminator. -/
def holdsBinary (m : Txt) (x : Elem) : Prop :=
  (∀ k < 293, memRead m k = if x.getLsbD (292 - k) then 0x31 else 0x30) ∧ memRead m 293 = 0x00

theorem getBit_rev (x : Elem) (k : Pos) : getBit x k.rev = x.getLsbD (292 - k) := by
  rw [getBit, Fin.val_rev, show 293 - (k.val + 1) = 292 - k by omega]

/-- Character k is that of position 292 − k (R226). -/
theorem getElem_binString (x : Elem) {k : Nat} (hk : k < 293) :
    (binString x)[k]'(by simpa using hk) = if x.getLsbD (292 - k) then 0x31 else 0x30 := by
  rw [binString_getElem x ⟨k, hk⟩, binChar, getBit_rev]

theorem holdsBinary_withString {s : State} (hs : Memory.wf s.txt) (x : Elem) :
    holdsBinary (s.withString (binString x)).txt x := by
  refine ⟨fun k hk => ?_, ?_⟩ <;> rw [memRead_withString (by simp) hs]
  · rw [dif_pos (by simpa using hk), getElem_binString x hk]
  · rw [dif_neg (by simp), if_pos (by simp)]

/-- FROMBIN reads an element exactly from its binary string (R230, R245). -/
theorem parseBin_eq_some_iff {m : Txt} {x : Elem} :
    parseBin m = some x ↔ isCanonical x = true ∧ holdsBinary m x := by
  constructor
  · intro h
    obtain ⟨hchars, hterm⟩ := (parseBin_isSome m).mp (Option.isSome_of_eq_some h)
    refine ⟨isCanonical_parseBin h, fun k hk => ?_, hterm⟩
    rw [← getBit_rev x ⟨k, hk⟩, getBit_parseBin h]
    rcases hchars k hk with hc | hc <;> simp [hc]
  · rintro ⟨hx, hchars, hterm⟩
    have hsome : (parseBin m).isSome = true := by
      refine (parseBin_isSome m).mpr ⟨fun k hk => ?_, hterm⟩
      rw [hchars k hk]
      split <;> simp
    obtain ⟨z, hz⟩ := Option.isSome_iff_exists.mp hsome
    rw [hz, eq_of_getBit_eq (isCanonical_parseBin hz) hx fun i => ?_]
    obtain ⟨k, rfl⟩ := Fin.rev_surjective i
    rw [getBit_parseBin hz, getBit_rev, hchars k k.isLt]
    cases x.getLsbD (292 - k) <;> decide

theorem parseBin_withString {s : State} (hs : Memory.wf s.txt) {x : Elem} (hx : isCanonical x = true) :
    parseBin (s.withString (binString x)).txt = some x :=
  parseBin_eq_some_iff.mpr ⟨hx, holdsBinary_withString hs x⟩

/-- Two texts that hold the binary string of one element agree up to the terminator. -/
theorem memRead_eq_of_holdsBinary {m m' : Txt} {x : Elem} (h : holdsBinary m x) (h' : holdsBinary m' x) {k : Nat}
    (hk : k < 294) : memRead m k = memRead m' k := by
  obtain ⟨hchars, hterm⟩ := h
  obtain ⟨hchars', hterm'⟩ := h'
  obtain hlt | rfl : k < 293 ∨ k = 293 := by omega
  · rw [hchars k hlt, hchars' k hlt]
  · rw [hterm, hterm']

-- TOBIN (R225)

theorem exec_tobin {s : State} {a : Reg} {cap : Cap} (hf : s.fatal = false) (ha : isCanonical (s.elem a) = true)
    (hleast : 294 ≤ cap.toNat) (hcap : cap.toNat ≤ 512) :
    exec (.tobin a cap) s = .next (s.withString (binString (s.elem a))) :=
  (exec_tobin_eq a cap s).trans (textCommand_writes hf ha hleast hcap)

/-- Settles O36: TOBIN writes the binary string of its source when the capacity holds it. -/
theorem tobinCommand : Obligations.TobinCommand := by
  refine fun a cap s hs => ⟨fun _ => ?_, fun hf ha hleast hcap => ?_, fun hf ha hlt => ?_, fun hf ha hcap => ?_,
    fun hf hcap => ?_, failsWith_tableFatal _⟩
  · exact (toNat_packWord 0x20 0 a 0 cap).trans (by simp)
  · obtain ⟨hchars, hterm⟩ := holdsBinary_withString hs (s.elem a)
    have honly := State.onlyText_withString (str := binString (s.elem a)) (by simp) hs
    rw [binString_length] at honly
    refine ⟨_, exec_tobin hf ha hleast hcap, ⟨rfl, rfl⟩, hchars, hterm, ?_, honly⟩
    rw [State.withString, State.complete_result, State.setResult_result, binString_length]
    rfl
  · exact failsWith_of_exec (textCommand_bufferTooSmall hf ha hlt (by omega))
  · exact failsWith_of_exec (textCommand_nonCanonical hf ha hcap)
  · exact failsWith_of_exec (textCommand_illegal hf hcap)

-- FROMBIN (R230)

theorem exec_frombin {s : State} (hf : s.fatal = false) (d : Reg) {z : Elem} (h : parseBin s.txt = some z) :
    exec (.frombin d) s = .next ((s.setElem d z).complete .ok) := by
  refine (command_runs hf (by simp)).trans ?_
  rw [h]
  rfl

theorem exec_frombin_none {s : State} (hf : s.fatal = false) (d : Reg) (h : parseBin s.txt = none) :
    exec (.frombin d) s = .next (s.complete .invalidFormat) := by
  refine (command_runs hf (by simp)).trans ?_
  rw [h]
  rfl

/-- Settles O37: FROMBIN writes the element whose binary string TXT holds, and fails on a text that is none. -/
theorem frombinCommand : Obligations.FrombinCommand := by
  refine fun d s => ⟨?_, fun hf hchars hterm => ?_, fun hf hbad => ?_, failsWith_tableFatal _⟩
  · exact (toNat_packWord 0x21 d 0 0 0).trans (by simp)
  · obtain ⟨z, hz⟩ := Option.isSome_iff_exists.mp ((parseBin_isSome s.txt).mpr ⟨hchars, hterm⟩)
    obtain ⟨hcanon, hread, _⟩ := parseBin_eq_some_iff.mp hz
    refine ⟨_, exec_frombin hf d hz, ⟨rfl, rfl⟩, fun k hk => ?_, fun i hi => ?_, s.onlyElem_setElem_complete d z .ok⟩ <;>
      rw [State.elem_complete, State.elem_setElem_self]
    · rw [hread k hk]
      cases z.getLsbD (292 - k) <;> rfl
    · exact (isCanonical_iff_excess z).mp hcanon i hi
  · refine failsWith_of_exec (exec_frombin_none hf d (Option.not_isSome_iff_eq_none.mp fun hsome => ?_))
    obtain ⟨hchars, hterm⟩ := (parseBin_isSome s.txt).mp hsome
    rcases hbad with ⟨k, hk, h0, h1⟩ | hne
    · exact (hchars k hk).elim h0 h1
    · exact hne hterm

/-- A FROMBIN that succeeds has read an element from its binary string. -/
theorem frombin_ok {s t : State} {d : Reg} (hf : s.fatal = false) (h : exec (.frombin d) s = .next t) (hok : t.err = .ok) :
    ∃ z, parseBin s.txt = some z ∧ t = (s.setElem d z).complete .ok := by
  cases hz : parseBin s.txt with
  | some z =>
    rw [exec_frombin hf d hz] at h
    cases h
    exact ⟨z, rfl, rfl⟩
  | none =>
    rw [exec_frombin_none hf d hz] at h
    cases h
    simp at hok

/-- Settles O40: FROMBIN reads an element exactly from its binary string, which is what TOBIN writes. -/
theorem binaryRoundTrip : Obligations.BinaryRoundTrip := by
  refine ⟨fun s t a d cap hs hf ha hleast hcap ht => ?_, fun s t d cap hs hf hleast hcap ht hok => ?_⟩
  · rw [exec_tobin hf ha hleast hcap] at ht
    cases ht
    refine ⟨_, exec_frombin (s := s.withString _) hf d (parseBin_withString hs ha), rfl, ?_⟩
    rw [State.elem_complete, State.elem_setElem_self]
  · obtain ⟨z, hz, rfl⟩ := frombin_ok hf ht hok
    obtain ⟨hcanon, hread⟩ := parseBin_eq_some_iff.mp hz
    have hd : ((s.setElem d z).complete .ok).elem d = z := State.elem_setElem_self s d z
    obtain ⟨_, habove, _⟩ :=
      State.onlyText_withString (s := (s.setElem d z).complete .ok) (str := binString z) (by simp) hs
    rw [binString_length] at habove
    refine ⟨_, exec_tobin hf (hd.symm ▸ hcanon) hleast hcap, rfl, fun k => ?_⟩
    rw [hd]
    by_cases hk : k < 294
    · exact memRead_eq_of_holdsBinary (holdsBinary_withString hs z) hread hk
    · exact habove k (by omega)

end Sys2Proof.Machine
end

section
/-! PROOFS. The hexadecimal text (48_serialization.md, R223, R235 to R245): the digits, the commands TOHEX and FROMHEX, and their round trip. -/

namespace Sys2Proof.Machine

-- The digits (R223)

theorem hexVal_decimal {b : Byte} (h : 0x30 ≤ b.toNat ∧ b.toNat ≤ 0x39) : hexVal b = some (b.toNat - 0x30) := if_pos h

theorem hexVal_upper {b : Byte} (h : 0x41 ≤ b.toNat ∧ b.toNat ≤ 0x46) : hexVal b = some (b.toNat - 0x41 + 10) := by
  rw [hexVal, if_neg (by omega), if_pos h]

theorem hexVal_lower {b : Byte} (h : 0x61 ≤ b.toNat ∧ b.toNat ≤ 0x66) : hexVal b = some (b.toNat - 0x61 + 10) := by
  rw [hexVal, if_neg (by omega), if_neg (by omega), if_pos h]

theorem hexVal_none {b : Byte} (h : b.toNat < 0x30 ∨ (0x39 < b.toNat ∧ b.toNat < 0x41) ∨
    (0x46 < b.toNat ∧ b.toNat < 0x61) ∨ 0x66 < b.toNat) : hexVal b = none := by
  rw [hexVal, if_neg (by omega), if_neg (by omega), if_neg (by omega)]

/-- The character of a digit, by its case. -/
theorem toNat_hexChar (upper : Bool) (v : Nibble) : (hexChar upper v).toNat =
    if v.toNat ≤ 9 then 0x30 + v.toNat else (if upper then 0x41 else 0x61) + (v.toNat - 10) := by
  have hv := v.isLt
  rw [hexChar]
  split_ifs <;> rw [BitVec.toNat_ofNat, Nat.mod_eq_of_lt (by omega)]

/-- Settles O60: the ranges of the digits' bytes are disjoint, and the characters stay below 256. -/
theorem hexDigits : Obligations.HexDigits := by
  refine ⟨fun b => ⟨fun h h' => hexVal_decimal ⟨h, h'⟩, fun h h' => hexVal_upper ⟨h, h'⟩,
    fun h h' => hexVal_lower ⟨h, h'⟩, hexVal_none⟩, fun v => ⟨fun h upper => ?_, fun h => ⟨?_, ?_⟩⟩⟩ <;>
    rw [toNat_hexChar]
  · exact if_pos h
  · exact if_neg (by omega)
  · exact if_neg (by omega)

/-- The decoder reads a digit back from its character in either case (R223, R245). -/
theorem hexVal_hexChar (upper : Bool) (v : Nibble) : hexVal (hexChar upper v) = some v.toNat := by
  have hv := v.isLt
  have hchar := toNat_hexChar upper v
  by_cases h9 : v.toNat ≤ 9
  · rw [if_pos h9] at hchar
    rw [hexVal_decimal (by omega), hchar, Nat.add_sub_cancel_left]
  · cases upper with
    | true =>
      have hchar : (hexChar true v).toNat = 0x41 + (v.toNat - 10) := hchar.trans (if_neg h9)
      rw [hexVal_upper (by omega), hchar]
      exact congrArg some (by omega)
    | false =>
      have hchar : (hexChar false v).toNat = 0x61 + (v.toNat - 10) := hchar.trans (if_neg h9)
      rw [hexVal_lower (by omega), hchar]
      exact congrArg some (by omega)

theorem hexVal_term : hexVal 0x00 = none := by decide

/-- A byte that is a digit is not the terminator. -/
theorem ne_term_of_hexVal {b : Byte} {d : Nat} (h : hexVal b = some d) : b ≠ 0x00 := by
  rintro rfl
  rw [hexVal_term] at h
  contradiction

-- The digits of an element and its string (R236)

theorem toNat_nibble (x : Elem) (j : Nat) : (nibble x j).toNat = x.toNat / 16 ^ j % 16 := by
  rw [nibble, BitVec.extractLsb'_toNat, Nat.shiftRight_eq_div_pow, pow_mul]
  rfl

/-- Nibbles n − 1 down to 0. -/
def lowNibbles (x : Elem) (n : Nat) : List Nibble := (List.range n).reverse.map (nibble x)

theorem nibblesMsbFirst_eq (x : Elem) : nibblesMsbFirst x = lowNibbles x 74 := rfl

@[simp] theorem lowNibbles_zero (x : Elem) : lowNibbles x 0 = [] := rfl

@[simp] theorem lowNibbles_succ (x : Elem) (n : Nat) : lowNibbles x (n + 1) = nibble x n :: lowNibbles x n := by
  simp [lowNibbles, List.range_succ]

@[simp] theorem lowNibbles_length (x : Elem) (n : Nat) : (lowNibbles x n).length = n := by simp [lowNibbles]

theorem lowNibbles_getElem (x : Elem) {n k : Nat} (hk : k < (lowNibbles x n).length) :
    (lowNibbles x n)[k] = nibble x (n - 1 - k) := by simp [lowNibbles]

/-- The highest nibble that is not zero, or 0 (R236). -/
def topNibble (x : Elem) : Nat := Nat.log 16 x.toNat

theorem toNat_lt_pow_topNibble_succ (x : Elem) : x.toNat < 16 ^ (topNibble x + 1) :=
  Nat.lt_pow_succ_log_self (by decide) _

theorem div_pow_topNibble_succ (x : Elem) : x.toNat / 16 ^ (topNibble x + 1) = 0 :=
  Nat.div_eq_of_lt (toNat_lt_pow_topNibble_succ x)

theorem div_pow_topNibble_mod (x : Elem) (h : topNibble x ≠ 0) : x.toNat / 16 ^ topNibble x % 16 ≠ 0 := by
  have hx : x.toNat ≠ 0 := fun hz => h (by rw [topNibble, hz, Nat.log_zero_right])
  have hpos : 0 < x.toNat / 16 ^ topNibble x := Nat.div_pos (Nat.pow_log_le_self 16 hx) (by positivity)
  have hlt : x.toNat / 16 ^ topNibble x / 16 = 0 := by
    rw [Nat.div_div_eq_div_mul, ← pow_succ, div_pow_topNibble_succ]
  omega

theorem topNibble_lt {x : Elem} (hx : isCanonical x = true) : topNibble x < 74 := by
  by_cases h0 : x.toNat = 0
  · rw [topNibble, h0, Nat.log_zero_right]
    decide
  · refine Nat.log_lt_of_lt_pow h0 ?_
    calc x.toNat < 2 ^ 293 := (isCanonical_iff_toNat x).mp hx
      _ ≤ 2 ^ (4 * 74) := by gcongr <;> decide
      _ = 16 ^ 74 := pow_mul 2 4 74

theorem stripZeros_zero_cons (l : List Nibble) : stripZeros (0 :: l) = stripZeros l := by
  simp [stripZeros]

theorem stripZeros_cons_of_ne {d : Nibble} (h : d ≠ 0) (l : List Nibble) : stripZeros (d :: l) = d :: l := by
  rw [stripZeros, List.dropWhile_cons_of_neg (by simpa using h)]

/-- Stripping zeros leaves the nibbles from the top one down, by induction on the zeros above it. -/
theorem stripZeros_lowNibbles (x : Elem) {n : Nat} (hn : topNibble x + 1 ≤ n) :
    stripZeros (lowNibbles x n) = lowNibbles x (topNibble x + 1) := by
  induction n, hn using Nat.le_induction with
  | base =>
    rw [lowNibbles_succ]
    by_cases htop : topNibble x = 0
    · rw [htop, lowNibbles_zero]
      by_cases h0 : nibble x 0 = 0
      · rw [h0]
        decide
      · exact stripZeros_cons_of_ne h0 _
    · refine stripZeros_cons_of_ne (fun h0 => div_pow_topNibble_mod x htop ?_) _
      rw [← toNat_nibble, h0]
      rfl
  | succ n hn ih =>
    have hzero : nibble x n = 0 := by
      apply BitVec.eq_of_toNat_eq
      have hlt : x.toNat < 16 ^ n :=
        (toNat_lt_pow_topNibble_succ x).trans_le (Nat.pow_le_pow_right (by decide) hn)
      rw [toNat_nibble, Nat.div_eq_of_lt hlt]
      rfl
    rw [lowNibbles_succ, hzero, stripZeros_zero_cons, ih]

/-- The hexadecimal string of a canonical element: its nibbles from the top one down. -/
theorem hexString_eq (upper : Bool) {x : Elem} (hx : isCanonical x = true) :
    hexString upper x = (lowNibbles x (topNibble x + 1)).map (hexChar upper) := by
  rw [hexString, nibblesMsbFirst_eq, stripZeros_lowNibbles x (topNibble_lt hx)]

theorem hexString_length_eq (upper : Bool) {x : Elem} (hx : isCanonical x = true) :
    (hexString upper x).length = topNibble x + 1 := by
  rw [hexString_eq upper hx, List.length_map, lowNibbles_length]

theorem getElem_hexString (upper : Bool) {x : Elem} (hx : isCanonical x = true) {k : Nat}
    (hk : k < (hexString upper x).length) : (hexString upper x)[k] = hexChar upper (nibble x (topNibble x - k)) := by
  simp only [hexString_eq upper hx, List.getElem_map, lowNibbles_getElem, Nat.add_sub_cancel]

-- TOHEX (R235)

theorem exec_tohex {s : State} {a : Reg} {cap : Cap} (hf : s.fatal = false) (ha : isCanonical (s.elem a) = true)
    (hleast : 75 ≤ cap.toNat) (hcap : cap.toNat ≤ 512) :
    exec (.tohex a cap) s = .next (s.withString (hexString false (s.elem a))) :=
  (exec_tohex_eq a cap s).trans (textCommand_writes hf ha hleast hcap)

/-- Settles O38: TOHEX writes the digits of its source from the top one down, in lower case, when the capacity holds 74. -/
theorem tohexCommand : Obligations.TohexCommand := by
  refine fun a cap s hs => ⟨fun _ => ?_, fun hf ha hleast hcap => ?_, fun hf ha hlt => ?_, fun hf ha hcap => ?_,
    fun hf hcap => ?_, failsWith_tableFatal _⟩
  · exact (toNat_packWord 0x22 0 a 0 cap).trans (by simp)
  · have htop := topNibble_lt ha
    have hlen := hexString_length_eq false ha
    have hmem := memRead_withString (str := hexString false (s.elem a)) (by omega) hs
    have honly := State.onlyText_withString (str := hexString false (s.elem a)) (by omega) hs
    rw [hlen] at honly
    refine ⟨_, topNibble (s.elem a), exec_tohex hf ha hleast hcap, ⟨rfl, rfl⟩, htop,
      or_iff_not_imp_left.mpr (div_pow_topNibble_mod _), div_pow_topNibble_succ _, fun k hk => ?_, ?_, ?_, honly⟩
    · rw [hmem, dif_pos (by omega), getElem_hexString false ha, toNat_hexChar, toNat_nibble]
      rfl
    · rw [hmem, dif_neg (by omega), if_pos hlen.symm]
    · rw [State.withString, State.complete_result, State.setResult_result, hlen, BitVec.toNat_ofNat,
        Nat.mod_eq_of_lt (by omega)]
  · exact failsWith_of_exec (textCommand_bufferTooSmall hf ha hlt (by omega))
  · exact failsWith_of_exec (textCommand_nonCanonical hf ha hcap)
  · exact failsWith_of_exec (textCommand_illegal hf hcap)

-- The length of the text (R241)

theorem hexLen_eq_some_iff {m : Txt} {n : Nat} :
    hexLen m = some n ↔ memRead m n = 0x00 ∧ n < 75 ∧ ∀ k < n, memRead m k ≠ 0x00 := by
  simp [hexLen]

theorem hexLen_eq_none_iff {m : Txt} : hexLen m = none ↔ ∀ k < 75, memRead m k ≠ 0x00 := by
  simp [hexLen]

-- The value of a run of digits (R240)

/-- A run of bytes has no value exactly when one of them is no digit. -/
theorem hexNumber_eq_none_iff (acc : Nat) (bs : List Byte) : hexNumber acc bs = none ↔ ∃ b ∈ bs, hexVal b = none := by
  induction bs generalizing acc with
  | nil => simp [hexNumber]
  | cons b bs ih => cases hb : hexVal b <;> simp [hexNumber, hb, ih]

theorem memReadBytes_succ (m : Txt) (n : Nat) : memReadBytes m 0 (n + 1) = memReadBytes m 0 n ++ [memRead m n] := by
  simp [memReadBytes, List.range_succ]

/-- The value of n digits: one more digit multiplies the value by 16 and adds itself. -/
theorem hexNumber_memReadBytes {m : Txt} {n : Nat} {v : Nat → Nat} (h : ∀ k < n, hexVal (memRead m k) = some (v k)) :
    hexNumber 0 (memReadBytes m 0 n) = some (∑ k ∈ Finset.range n, v k * 16 ^ (n - 1 - k)) := by
  induction n with
  | zero => rfl
  | succ n ih =>
    have hshift : ∑ k ∈ Finset.range n, v k * 16 ^ (n - k) = 16 * ∑ k ∈ Finset.range n, v k * 16 ^ (n - 1 - k) := by
      rw [Finset.mul_sum]
      refine Finset.sum_congr rfl fun k hk => ?_
      have hlt := Finset.mem_range.mp hk
      rw [show n - k = n - 1 - k + 1 by omega, pow_succ]
      ring
    rw [memReadBytes_succ, hexNumber_append, ih fun k hk => h k (by omega), h n (Nat.lt_succ_self n),
      Finset.sum_range_succ, Nat.add_sub_cancel, hshift]
    simp

/-- The value of the digits of an element, after a value `acc`. -/
theorem hexNumber_lowNibbles (upper : Bool) (x : Elem) (n acc : Nat) :
    hexNumber acc ((lowNibbles x n).map (hexChar upper)) = some (16 ^ n * acc + x.toNat % 16 ^ n) := by
  induction n generalizing acc with
  | zero => simp [hexNumber, Nat.mod_one]
  | succ n ih =>
    rw [lowNibbles_succ, List.map_cons, hexNumber, hexVal_hexChar]
    simp only [ih, toNat_nibble, Nat.mod_pow_succ, Option.some.injEq]
    ring

/-- The value of an element's string is the element as an integer (R245). -/
theorem hexNumber_hexString (upper : Bool) {x : Elem} (hx : isCanonical x = true) :
    hexNumber 0 (hexString upper x) = some x.toNat := by
  rw [hexString_eq upper hx, hexNumber_lowNibbles, Nat.mul_zero, Nat.zero_add,
    Nat.mod_eq_of_lt (toNat_lt_pow_topNibble_succ x)]

-- What FROMHEX reads (R240, R242)

theorem parseHex_of_hexLen_none {m : Txt} (h : hexLen m = none) : parseHex m = .error .overflow := by
  rw [parseHex, h]

theorem parseHex_of_hexLen_zero {m : Txt} (h : hexLen m = some 0) : parseHex m = .error .invalidFormat := by
  rw [parseHex, h]

theorem parseHex_of_hexNumber_none {m : Txt} {n : Nat} (h : hexLen m = some (n + 1))
    (hv : hexNumber 0 (memReadBytes m 0 (n + 1)) = none) : parseHex m = .error .invalidDigit := by
  rw [parseHex, h]
  simp only [hv]

theorem parseHex_of_hexNumber {m : Txt} {n v : Nat} (hlen : hexLen m = some n) (hpos : 1 ≤ n)
    (hv : hexNumber 0 (memReadBytes m 0 n) = some v) : parseHex m = .ok (canonicalize (BitVec.ofNat 320 v)) := by
  obtain ⟨n, rfl⟩ := Nat.exists_eq_add_of_le' hpos
  rw [parseHex, hlen]
  simp only [hv]

/-- Positions 293 to 295 of the value are dropped (R242). -/
theorem toNat_canonicalize_ofNat (v : Nat) : (canonicalize (BitVec.ofNat 320 v)).toNat = v % 2 ^ 293 := by
  rw [toNat_canonicalize, BitVec.toNat_ofNat]
  omega

-- FROMHEX (R240)

theorem exec_fromhex {s : State} (hf : s.fatal = false) (d : Reg) {z : Elem} (h : parseHex s.txt = .ok z) :
    exec (.fromhex d) s = .next ((s.setElem d z).complete .ok) := by
  refine (command_runs hf (by simp)).trans ?_
  rw [h]
  rfl

theorem failsWith_of_parseHex {s : State} (hf : s.fatal = false) (d : Reg) {k : ErrKind} (h : parseHex s.txt = .error k) :
    failsWith (.fromhex d) s k := by
  refine failsWith_of_exec ((command_runs hf (by simp)).trans ?_)
  rw [h]
  rfl

/-- Settles O39: the first terminator gives the length, and each case of the text is a case of `parseHex`. -/
theorem fromhexCommand : Obligations.FromhexCommand := by
  refine fun d s => ⟨?_, fun hf n v hpos hn hterm hdig => ?_, fun hf h => ?_, fun hf h => ?_,
    fun hf n hn hterm hbefore hbad => ?_, failsWith_tableFatal _⟩
  · exact (toNat_packWord 0x23 d 0 0 0).trans (by simp)
  · have hlen : hexLen s.txt = some n :=
      hexLen_eq_some_iff.mpr ⟨hterm, by omega, fun k hk => ne_term_of_hexVal (hdig k hk)⟩
    have hparse := parseHex_of_hexNumber hlen hpos (hexNumber_memReadBytes hdig)
    refine ⟨_, exec_fromhex hf d hparse, ⟨rfl, rfl⟩, ?_, s.onlyElem_setElem_complete d _ _⟩
    rw [State.elem_complete, State.elem_setElem_self, toNat_canonicalize_ofNat]
  · exact failsWith_of_parseHex hf d (parseHex_of_hexLen_none (hexLen_eq_none_iff.mpr h))
  · exact failsWith_of_parseHex hf d (parseHex_of_hexLen_zero (hexLen_eq_some_iff.mpr ⟨h, by decide, by simp⟩))
  · obtain ⟨k, hk, hnone⟩ := hbad
    obtain ⟨n, rfl⟩ := Nat.exists_eq_add_of_le' (Nat.one_le_of_lt hk)
    have hlen := hexLen_eq_some_iff.mpr ⟨hterm, by omega, hbefore⟩
    refine failsWith_of_parseHex hf d (parseHex_of_hexNumber_none hlen ((hexNumber_eq_none_iff 0 _).mpr ⟨_, ?_, hnone⟩))
    rw [memReadBytes, List.mem_map]
    exact ⟨k, List.mem_range.mpr hk, by rw [Nat.zero_add]⟩

-- The round trip (R245)

/-- The characters of a hexadecimal string are digits. -/
theorem ne_term_of_mem_hexString {upper : Bool} {x : Elem} {b : Byte} (hb : b ∈ hexString upper x) : b ≠ 0x00 := by
  obtain ⟨v, _, rfl⟩ := List.mem_map.mp hb
  exact ne_term_of_hexVal (hexVal_hexChar upper v)

section WrittenText
variable {m : Txt} {str : List Byte}

/-- A buffer that a string of at most 511 characters and its terminator are written to. -/
theorem memRead_writtenText (h : str.length ≤ 511) (hm : Memory.wf m) (q : Nat) :
    memRead (memWriteBytes m 0 (str ++ [0x00])) q =
      if h : q < str.length then str[q] else if q = str.length then 0x00 else memRead m q :=
  memRead_setText (s := { State.reset with txt := m }) h hm q

theorem memReadBytes_writtenText (h : str.length ≤ 511) (hm : Memory.wf m) :
    memReadBytes (memWriteBytes m 0 (str ++ [0x00])) 0 str.length = str := by
  refine List.ext_getElem (memReadBytes_length _ _ _) fun q _ hq => ?_
  rw [memReadBytes_getElem, Nat.zero_add, memRead_writtenText h hm, dif_pos hq]

theorem hexLen_writtenText (h : str.length ≤ 74) (hm : Memory.wf m) (hstr : ∀ b ∈ str, b ≠ 0x00) :
    hexLen (memWriteBytes m 0 (str ++ [0x00])) = some str.length := by
  refine hexLen_eq_some_iff.mpr ⟨?_, by omega, fun k hk => ?_⟩ <;> rw [memRead_writtenText (by omega) hm]
  · simp
  · rw [dif_pos hk]
    exact hstr _ (List.getElem_mem hk)

end WrittenText

/-- The decoder reads an element back from its string in either letter case (R245). -/
theorem parseHex_hexString (upper : Bool) {x : Elem} {m : Txt} (hm : Memory.wf m) (hx : isCanonical x = true) :
    parseHex (memWriteBytes m 0 (hexString upper x ++ [0x00])) = .ok x := by
  obtain ⟨hpos, hle⟩ := hexString_length upper x
  have hval : hexNumber 0 (memReadBytes (memWriteBytes m 0 (hexString upper x ++ [0x00])) 0 (hexString upper x).length) =
      some x.toNat := by rw [memReadBytes_writtenText (by omega) hm, hexNumber_hexString upper hx]
  rw [parseHex_of_hexNumber (hexLen_writtenText hle hm fun _ => ne_term_of_mem_hexString) hpos hval,
    BitVec.ofNat_toNat, BitVec.setWidth_eq, (isCanonical_iff x).mp hx]

/-- Settles O41: FROMHEX parses the text that TOHEX leaves. -/
theorem hexRoundTrip : Obligations.HexRoundTrip := by
  refine ⟨fun s t a d cap hs hf ha hleast hcap ht => ?_, fun upper x m => parseHex_hexString upper⟩
  rw [exec_tohex hf ha hleast hcap] at ht
  cases ht
  refine ⟨_, exec_fromhex (s := s.withString _) hf d (parseHex_hexString false hs ha), rfl, ?_⟩
  rw [State.elem_complete, State.elem_setElem_self]

end Sys2Proof.Machine
end

section
/-! PROOFS. Outcomes and exceptions (60_exceptions.md, R262 to R274): every step has a next state, the outcomes of each command, and the illegal word. -/

namespace Sys2Proof.Machine

-- Every state has a next state (R274)

theorem coreTurn_answers_next (s : State) : ∃ t, coreTurn s = .next t := by
  rcases coreTurn_cases s with ⟨_, e⟩ | ⟨_, i, _, e⟩ | ⟨_, _, e⟩ <;> rw [e]
  · exact ⟨s, rfl⟩
  · exact exec_answers_next i s
  · exact ⟨_, rfl⟩

theorem step_answers_next (s : State) : ∃ t, step s = .next t := by
  rcases step_cases s with ⟨_, e⟩ | ⟨ev, es, _, e⟩ <;> rw [e]
  · exact coreTurn_answers_next s
  · cases ev with
    | read off => exact ⟨_, rfl⟩
    | write off d => exact ⟨_, rfl⟩
    | coreTurn => exact coreTurn_answers_next _
    | reset draw => exact ⟨_, rfl⟩

/-- Settles O9: a transaction or a reset answers the state it makes, and the core's turn answers through `exec`, of which all five shapes are next states. -/
theorem everyStepAnswersNext : Obligations.EveryStepAnswersNext := ⟨step_answers_next, exec_answers_next⟩

-- The illegal word (R263)

theorem runPending_of_decode_error {s : State} {e : DecodeError} (hf : s.fatal = false) (h : decode s.pend = .error e) :
    runPending s = .next (s.complete .illegalCommand) := by
  rw [runPending, h]
  exact command_illegal hf

/-- Settles O7: the core step on a word that does not decode is `complete` alone. -/
theorem illegalWordOnlySetsErr : Obligations.IllegalWordOnlySetsErr := by
  intro s u e hb hf hturn he
  rw [← State.pend_of_atCoreTurn hturn] at he
  rw [← State.fatal_of_atCoreTurn hturn] at hf
  exact ⟨_, (step_eq_runPending hb hturn).trans (runPending_of_decode_error hf he), ⟨rfl, rfl⟩, rfl,
    u.unchanged_complete _⟩

-- The outcomes of a command (R262)

/-- The answer, where it is a next state, has an outcome of the list. -/
def endsIn (r : Result) (ks : List ErrKind) : Prop := ∀ t, r = .next t → t.err ∈ ks

theorem endsIn_complete {s : State} {k : ErrKind} {ks : List ErrKind} (hk : k ∈ ks) :
    endsIn (.next (s.complete k)) ks := by
  intro t h
  cases h
  exact hk

/-- The checks before a legal command's own rule add NonCanonical, and only where there is a source to check (R84). -/
theorem endsIn_command {s : State} {srcs : List Reg} {body : Result} {ks : List ErrKind} (hf : s.fatal = false)
    (hsrc : ∀ r ∈ srcs, ErrKind.nonCanonical ∈ ks) (hbody : endsIn body ks) : endsIn (command s true srcs body) ks := by
  rcases command_cases s true srcs body with ⟨hfatal, _⟩ | ⟨_, hlegal, _⟩ | ⟨_, _, ⟨r, hr, _⟩, e⟩ | ⟨_, _, _, e⟩
  · simp [hf] at hfatal
  · simp at hlegal
  · rw [e]
    exact endsIn_complete (hsrc r hr)
  · rw [e]
    exact hbody

/-- The build of a first use succeeds, so a command that multiplies adds no outcome to OK (R166). -/
theorem endsIn_writeWithTable {s : State} {used : Bool} {rd : Reg} {f : List Pair → Elem} {ks : List ErrKind}
    (hf : s.fatal = false) (hok : ErrKind.ok ∈ ks) : endsIn (writeWithTable s used rd f) ks := by
  rw [writeWithTable_eq hf]
  exact endsIn_complete hok

theorem endsIn_textCommand {least : Nat} {str : Elem → List Byte} {a : Reg} {cap : Cap} {s : State} {ks : List ErrKind}
    (hf : s.fatal = false) (hcap : cap.toNat ≤ 512) (hok : ErrKind.ok ∈ ks) (hsmall : ErrKind.bufferTooSmall ∈ ks)
    (hnon : ErrKind.nonCanonical ∈ ks) : endsIn (textCommand least str a cap s) ks := by
  rw [textCommand_legal hcap]
  refine endsIn_command hf (fun _ _ => hnon) ?_
  split
  · exact endsIn_complete hsmall
  · exact endsIn_complete hok

theorem ok_mem_possibleOutcomes (i : Instr) : ErrKind.ok ∈ possibleOutcomes i := by
  cases i <;> simp [possibleOutcomes]

theorem exec_endsIn_possibleOutcomes {i : Instr} {s : State} (hwf : i.wf = true) (hf : s.fatal = false) :
    endsIn (exec i s) (possibleOutcomes i) := by
  have hok := ok_mem_possibleOutcomes i
  cases i with
  | zero | one | mov | canon | iszero | isone | trace | add | sqr =>
    exact endsIn_command hf (by simp [possibleOutcomes]) (endsIn_complete hok)
  | mul | pow | inv =>
    exact endsIn_command hf (by simp [possibleOutcomes]) (endsIn_writeWithTable hf hok)
  | tobin rs1 cap | tohex rs1 cap =>
    exact endsIn_textCommand hf ((capLegal_iff cap).mp hwf) hok (by simp [possibleOutcomes]) (by simp [possibleOutcomes])
  | frombin rd =>
    refine endsIn_command hf nofun ?_
    split
    · exact endsIn_complete hok
    · exact endsIn_complete (by simp [possibleOutcomes])
  | fromhex rd =>
    refine endsIn_command hf nofun ?_
    split
    · exact endsIn_complete hok
    · rename_i k hk
      exact endsIn_complete (by rcases parseHex_error hk with rfl | rfl | rfl <;> simp [possibleOutcomes])

/-- Settles O14: beside OK a command has the outcomes of its own rule, and NonCanonical if it checks a source. -/
theorem outcomesOfEachCommand : Obligations.OutcomesOfEachCommand := fun _ _ t hwf hf h =>
  exec_endsIn_possibleOutcomes hwf hf t h

end Sys2Proof.Machine
end
